-- ==== Sys2Proof/Word.lean ====
section
/-! DEFINITION. The word types of the block: every register value is 32 bits wide (`REG_BITS`, rule R6), a
serial byte is 8 bits wide (rule R38), bits are numbered from 0, the least significant (rule R8). -/

namespace Sys2Proof

/-- A register value or a byte offset: 32 bits (rules R6 `REG_BITS`, R21, R80 `off: u32`). -/
abbrev Word := BitVec 32

/-- A serial byte (rules R38, R80 `bytes: list of u8`). -/
abbrev Byte := BitVec 8

end Sys2Proof
end

