-- ==== Sys2Proof/Config.lean ====
section
/-! DEFINITION. What is fixed for the machine: the normative constants of rule R6, the record of its
implementation parameters, and the values the spec leaves OPEN (opaque constants: no proof can see them). The
default values of the other parameters are in `Sys2Proof/Machine/Defaults.lean`; the check of rule R7 is in
`Sys2Proof/WellFormed.lean`. -/

namespace Sys2Proof

/-- `N_PINS`, the number of pins (rule R6, §3 "one of N, N = 144"). -/
abbrev nPins : Nat := 144

/-- `RX_CAP`, the receive FIFO's capacity in bytes (rule R6). -/
abbrev rxCap : Nat := 16

/-- `TX_CAP`, the transmit FIFO's capacity in bytes. The spec names it and uses it nowhere: the transmit FIFO is not
state (rules R6, R45). -/
abbrev txCap : Nat := 16

/-- `UART_NSLOTS`, the number of 32-bit slots of the serial register file (rule R6). -/
abbrev uartNSlots : Nat := 12

/-- `PIN_CFG_STRIDE`: each configuration slot is four bytes wide (rule R6). The strides of the two data blocks
are 1, so an offset in them is the base plus the pin's number. -/
abbrev pinCfgStride : Nat := 4

/-- The seven plain-storage slots of the serial register file (rules R39, R43): GLOBAL, PINCFG, BAUD, MATCH, MODIR,
FIFO and WATER. The record is used for their current values and for the parameter `UART_RESET[s]` (rule R6). -/
structure PlainSlots where
  globalReg : Word
  pincfg    : Word
  baud      : Word
  matchReg  : Word
  modir     : Word
  fifoReg   : Word
  water     : Word
  deriving DecidableEq, Repr, Inhabited

/-- The implementation parameters of rule R6 that the spec gives as a decision, as general knowledge or as OPEN.
One machine has one value of each; no step changes them. -/
structure Params where
  -- offsets of the pin controller's registers and blocks, and its window's size (decision D1)
  pinOffId0            : Nat
  pinOffId1            : Nat
  pinOffEdgeStatus     : Nat
  pinOffIrqEnable      : Nat
  pinOffEdgeTypeSelect : Nat
  pinOffRisingEnable   : Nat
  pinOffFallingEnable  : Nat
  pinOffFilterEnable   : Nat
  pinCfgBase           : Nat
  pinOutBase           : Nat
  pinInBase            : Nat
  pinWindow            : Nat
  -- `PIN_ID_VALUE[k]`, the identification constants (OPEN, decision D3)
  pinIdValue0          : Word
  pinIdValue1          : Word
  -- bit positions in a configuration word (decision D2)
  cfgObeBit            : Nat
  cfgIbeBit            : Nat
  -- `EDGE_BIT` as a table: entry p is the bit of pin p, and pins past the end have none (decision D8)
  edgeBitTable         : List (Option Nat)
  -- behaviour switches (decisions D9, D10, D12)
  pinFilterWritable    : Bool
  pinIrqLowerOnClear   : Bool
  pinDriveOnChangeOnly : Bool
  -- the serial controller's window (decision D4)
  uartWindow           : Nat
  -- bit positions in STAT and CTRL (decision D5)
  statTdre             : Nat
  statTc               : Nat
  statRdrf             : Nat
  statIdle             : Nat
  statOr               : Nat
  statNf               : Nat
  statFe               : Nat
  statPf               : Nat
  ctrlTie              : Nat
  ctrlRie              : Nat
  ctrlTe               : Nat
  ctrlRe               : Nat
  -- `UART_VERID_VALUE`, `UART_PARAM_VALUE` and `UART_RESET[s]` (OPEN, decisions D6, D7)
  uartVeridValue       : Word
  uartParamValue       : Word
  uartReset            : PlainSlots
  -- whether the read that empties the FIFO recomputes the line (decision D13)
  uartIrqUpdateOnDrain : Bool
  -- `PIN_BASE` and `UART_BASE`, the bus addresses of the two windows (OPEN, decision D30)
  pinBase              : Nat
  uartBase             : Nat
  deriving DecidableEq, Repr

/-- `EDGE_BIT(p)` of rule R6: the bit of the 32-bit edge registers that belongs to pin p, or none. -/
def Params.edgeBit (P : Params) (p : Fin nPins) : Option Nat :=
  (P.edgeBitTable[p.val]?).join

/-- `PIN_ID_VALUE[k]`: OPEN (rules R6, R23), so no value is given. -/
opaque Config.pinIdValue : Nat → Word

/-- `UART_VERID_VALUE`: OPEN (rules R6, R39), so no value is given. -/
opaque Config.uartVeridValue : Word

/-- `UART_PARAM_VALUE`: OPEN (rules R6, R39), so no value is given. -/
opaque Config.uartParamValue : Word

/-- `UART_RESET[s]` for the seven plain slots: OPEN (rules R6, R252), so no value is given. -/
opaque Config.uartReset : PlainSlots

/-- `PIN_BASE`: OPEN (rules R6, R61), so no value is given. -/
opaque Config.pinBase : Nat

/-- `UART_BASE`: OPEN (rules R6, R61), so no value is given. -/
opaque Config.uartBase : Nat

end Sys2Proof
end

