-- ==== Sys2Proof/Machine/Defaults.lean ====
section
/-! DEFINITION. The default value of every parameter of rule R6: the value this hardware takes. -/

namespace Sys2Proof

/-- `EDGE_BIT` by default: pins 0 to 31 have bits 0 to 31, the pins after them have none (rule R6, decision D8). -/
def defaultEdgeBitTable : List (Option Nat) := (List.range 32).map some

/-- The default parameters of rule R6. The offsets and bit positions are the spec's general-knowledge defaults
(PRESUMED by the spec: the NXP S32K3 layout); the OPEN entries are the opaque constants of `Config`. -/
def defaultParams : Params where
  pinOffId0            := 0x004
  pinOffId1            := 0x008
  pinOffEdgeStatus     := 0x010
  pinOffIrqEnable      := 0x018
  pinOffEdgeTypeSelect := 0x020
  pinOffRisingEnable   := 0x028
  pinOffFallingEnable  := 0x030
  pinOffFilterEnable   := 0x038
  pinCfgBase           := 0x240
  pinOutBase           := 0x1300
  pinInBase            := 0x1500
  pinWindow            := 0x4000
  pinIdValue0          := Config.pinIdValue 0
  pinIdValue1          := Config.pinIdValue 1
  cfgObeBit            := 21
  cfgIbeBit            := 19
  edgeBitTable         := defaultEdgeBitTable
  pinFilterWritable    := false
  pinIrqLowerOnClear   := true
  pinDriveOnChangeOnly := false
  uartWindow           := 0x4000
  statTdre             := 23
  statTc               := 22
  statRdrf             := 21
  statIdle             := 20
  statOr               := 19
  statNf               := 18
  statFe               := 17
  statPf               := 16
  ctrlTie              := 23
  ctrlRie              := 21
  ctrlTe               := 19
  ctrlRe               := 18
  uartVeridValue       := Config.uartVeridValue
  uartParamValue       := Config.uartParamValue
  uartReset            := Config.uartReset
  uartIrqUpdateOnDrain := false
  pinBase              := Config.pinBase
  uartBase             := Config.uartBase

end Sys2Proof
end

