-- ==== Sys2Proof/Machine/Request.lean ====
section
/-! DEFINITION. The requests that reach the block at its entry points (rules R5, R80): what takes the place of an
instruction word. The spec's encoding of an operation IS its request record (rule R90). -/

namespace Sys2Proof

/-- The two controllers (rule R10: `dev` is `PIN` or `UART`). -/
inductive Dev where
  | pin
  | uart
  deriving DecidableEq, Repr

/-- The direction of a register access (rules R80, R221: READ or WRITE). -/
inductive Dir where
  | read
  | write
  deriving DecidableEq, Repr

/-- The access widths the pin controller takes, in bytes: `PIN_WIDTHS` = 1, 2, 4 (rules R6, R62). The serial controller
takes only `b4` (rule R63). -/
inductive Width where
  | b1
  | b2
  | b4
  deriving DecidableEq, Repr

/-- A request record: the six formats of rule R80. The width and the pin level are natural numbers, wider than the
interface's types, because rules R62 and R147 say what values outside those types do. -/
inductive Request where
  /-- `MMIO-R`: `read(off, w)` on a controller. -/
  | mmioR (dev : Dev) (off : Word) (w : Nat)
  /-- `MMIO-W`: `write(off, w, v)` on a controller. -/
  | mmioW (dev : Dev) (off : Word) (w : Nat) (v : Word)
  /-- `RESET`: `reset()` of a controller. -/
  | reset (dev : Dev)
  /-- `PIN-EV`: `set_pin_input(p, level)`. -/
  | pinEv (p : Nat) (level : Nat)
  /-- `RX-EV`: `receive_bytes(bytes)`. -/
  | rxEv (bytes : List Byte)
  /-- `RX-Q`: `can_receive()`. -/
  | rxQ
  deriving DecidableEq, Repr

end Sys2Proof
end

