-- ==== Sys2Proof/Machine/Address.lean ====
section
/-! DEFINITION. Address decode: from a byte offset in a controller's window to what it selects (rules R83, R84) and
back to the offset (rules R37, R39), with the widths and the alignment rule (rules R62 to R64), and the windows'
places on the bus (rule R61). -/

namespace Sys2Proof

/-- What an offset of the pin controller selects (rule R83). `lane` is the byte of the configuration slot: all four
select the same word. -/
inductive PinTarget where
  | id0
  | id1
  | edgeStatus
  | irqEnable
  | edgeTypeSelect
  | risingEnable
  | fallingEnable
  | filterEnable
  | cfg (p : Fin nPins) (lane : Fin 4)
  | out (p : Fin nPins)
  | inp (p : Fin nPins)
  deriving DecidableEq, Repr

/-- The twelve slots of the serial register file, in the source's order (rule R39). -/
inductive Slot where
  | verid
  | param
  | global
  | pincfg
  | baud
  | stat
  | ctrl
  | data
  | matchReg
  | modir
  | fifo
  | water
  deriving DecidableEq, Repr

/-- A controller's window size: `PIN_WINDOW` or `UART_WINDOW` (rules R6, R60). -/
def Params.window (P : Params) : Dev → Nat
  | .pin  => P.pinWindow
  | .uart => P.uartWindow

/-- A window's bus address: `PIN_BASE` or `UART_BASE` (rules R6, R61). -/
def Params.base (P : Params) : Dev → Nat
  | .pin  => P.pinBase
  | .uart => P.uartBase

/-- The offset as which a bus access at address `a` reaches a controller, and none when `a` is outside its window
(rule R61). The Bus Dispatcher does this, outside the block: a request names the controller and the offset. -/
def Params.busOffset (P : Params) (dev : Dev) (a : Nat) : Option Word :=
  if P.base dev ≤ a ∧ a < P.base dev + P.window dev then some (BitVec.ofNat 32 (a - P.base dev)) else none

/-- A width in bytes. -/
def Width.bytes : Width → Nat
  | .b1 => 1
  | .b2 => 2
  | .b4 => 4

/-- The width of so many bytes, if the pin controller takes it (rule R62: 1, 2 or 4). -/
def Width.ofBytes (n : Nat) : Option Width :=
  if n = 1 then some .b1 else if n = 2 then some .b2 else if n = 4 then some .b4 else none

/-- An access at `off` is aligned to its width (rule R64: `off mod width = 0`). -/
def aligned (off : Nat) (w : Width) : Bool := off % w.bytes == 0

/-- The register map of rule R37: the offset that selects a target. -/
def PinTarget.off (P : Params) : PinTarget → Nat
  | .id0            => P.pinOffId0
  | .id1            => P.pinOffId1
  | .edgeStatus     => P.pinOffEdgeStatus
  | .irqEnable      => P.pinOffIrqEnable
  | .edgeTypeSelect => P.pinOffEdgeTypeSelect
  | .risingEnable   => P.pinOffRisingEnable
  | .fallingEnable  => P.pinOffFallingEnable
  | .filterEnable   => P.pinOffFilterEnable
  | .cfg p lane     => P.pinCfgBase + pinCfgStride * p.val + lane.val
  | .out p          => P.pinOutBase + p.val
  | .inp p          => P.pinInBase + p.val

/-- The pin of slot `n` of a per-pin block (rule R82, slot arithmetic). -/
def pinOfSlot (n : Nat) : Fin nPins := Fin.ofNat nPins n

/-- `decode_pin` of rule R83, in its order; `none` is `NONE`. -/
def decodePin (P : Params) (off : Nat) : Option PinTarget :=
  if off = P.pinOffId0 then some .id0
  else if off = P.pinOffId1 then some .id1
  else if off = P.pinOffEdgeStatus then some .edgeStatus
  else if off = P.pinOffIrqEnable then some .irqEnable
  else if off = P.pinOffEdgeTypeSelect then some .edgeTypeSelect
  else if off = P.pinOffRisingEnable then some .risingEnable
  else if off = P.pinOffFallingEnable then some .fallingEnable
  else if off = P.pinOffFilterEnable then some .filterEnable
  else if P.pinCfgBase ≤ off ∧ off < P.pinCfgBase + pinCfgStride * nPins then
    some (.cfg (pinOfSlot ((off - P.pinCfgBase) / pinCfgStride)) (Fin.ofNat 4 ((off - P.pinCfgBase) % pinCfgStride)))
  else if P.pinOutBase ≤ off ∧ off < P.pinOutBase + nPins then some (.out (pinOfSlot (off - P.pinOutBase)))
  else if P.pinInBase ≤ off ∧ off < P.pinInBase + nPins then some (.inp (pinOfSlot (off - P.pinInBase)))
  else none

/-- The slot with an index (rules R39, R84: 0=VERID … 11=WATER). -/
def Slot.ofIndex : Nat → Option Slot
  | 0  => some .verid
  | 1  => some .param
  | 2  => some .global
  | 3  => some .pincfg
  | 4  => some .baud
  | 5  => some .stat
  | 6  => some .ctrl
  | 7  => some .data
  | 8  => some .matchReg
  | 9  => some .modir
  | 10 => some .fifo
  | 11 => some .water
  | _  => none

/-- A slot's offset, `4*i` for the slot of index i (rule R39). -/
def Slot.off : Slot → Nat
  | .verid    => 0x00
  | .param    => 0x04
  | .global   => 0x08
  | .pincfg   => 0x0C
  | .baud     => 0x10
  | .stat     => 0x14
  | .ctrl     => 0x18
  | .data     => 0x1C
  | .matchReg => 0x20
  | .modir    => 0x24
  | .fifo     => 0x28
  | .water    => 0x2C

/-- `decode_uart` of rule R84, for an aligned offset; `none` is `OUT_OF_RANGE`. Rule R84 speaks of offsets in the window.
DESIGN CHOICE (log entry 18): under a parameter set with `UART_WINDOW` below `4*UART_NSLOTS`, an offset past the window and
below `4*UART_NSLOTS` still selects its slot. -/
def decodeUart (off : Nat) : Option Slot :=
  if off < 4 * uartNSlots then Slot.ofIndex (off / 4) else none

end Sys2Proof
end

