-- ==== Sys2Proof/Syntax.lean ====
section
/-! DEFINITION. The operations of the block: one constructor per row of spec/opcode_table.json (rule R85), with the
operands its rule names. A register access that fails its width or alignment requirement is not decoded (rule R87), so
an operation carries a width the controller takes; a write carries the bus data before narrowing (rule R101). -/

namespace Sys2Proof

/-- One operation of the block (rule R85). -/
inductive Instr where
  /-- `PIN.RD.ID0`: read of identification register 0 (rule R102). -/
  | pinRdId0 (w : Width)
  /-- `PIN.RD.ID1`: read of identification register 1 (rule R102). -/
  | pinRdId1 (w : Width)
  /-- `PIN.RD.EDGE_STATUS`: read of the edge-status register (rule R103). -/
  | pinRdEdgeStatus (w : Width)
  /-- `PIN.RD.IRQ_ENABLE`: read of the interrupt-request-enable register (rule R104). -/
  | pinRdIrqEnable (w : Width)
  /-- `PIN.RD.EDGE_TYPE_SELECT`: read of the edge-type-select register (rule R105). -/
  | pinRdEdgeTypeSelect (w : Width)
  /-- `PIN.RD.RISING_ENABLE`: read of the rising-edge-enable register (rule R106). -/
  | pinRdRisingEnable (w : Width)
  /-- `PIN.RD.FALLING_ENABLE`: read of the falling-edge-enable register (rule R107). -/
  | pinRdFallingEnable (w : Width)
  /-- `PIN.RD.FILTER_ENABLE`: read of the filter-enable register (rule R108). -/
  | pinRdFilterEnable (w : Width)
  /-- `PIN.RD.CFG`: read at byte `lane` of pin p's configuration slot (rule R109). -/
  | pinRdCfg (p : Fin nPins) (lane : Fin 4) (w : Width)
  /-- `PIN.RD.OUT`: read of pin p's output-data slot (rule R110). -/
  | pinRdOut (p : Fin nPins) (w : Width)
  /-- `PIN.RD.IN`: read of pin p's input-data slot (rule R111). -/
  | pinRdIn (p : Fin nPins) (w : Width)
  /-- `PIN.RD.INVALID`: read of an offset that decodes as `NONE` (rule R122). -/
  | pinRdInvalid (off : Word) (w : Width)
  /-- `PIN.WR.ID0`: write to identification register 0 (rule R112). -/
  | pinWrId0 (w : Width) (data : Word)
  /-- `PIN.WR.ID1`: write to identification register 1 (rule R112). -/
  | pinWrId1 (w : Width) (data : Word)
  /-- `PIN.WR.EDGE_STATUS`: write to the edge-status register (rule R113). -/
  | pinWrEdgeStatus (w : Width) (data : Word)
  /-- `PIN.WR.IRQ_ENABLE`: write to the interrupt-request-enable register (rule R114). -/
  | pinWrIrqEnable (w : Width) (data : Word)
  /-- `PIN.WR.EDGE_TYPE_SELECT`: write to the edge-type-select register (rule R115). -/
  | pinWrEdgeTypeSelect (w : Width) (data : Word)
  /-- `PIN.WR.RISING_ENABLE`: write to the rising-edge-enable register (rule R116). -/
  | pinWrRisingEnable (w : Width) (data : Word)
  /-- `PIN.WR.FALLING_ENABLE`: write to the falling-edge-enable register (rule R117). -/
  | pinWrFallingEnable (w : Width) (data : Word)
  /-- `PIN.WR.FILTER_ENABLE`: write to the filter-enable register (rule R118). -/
  | pinWrFilterEnable (w : Width) (data : Word)
  /-- `PIN.WR.CFG`: write at byte `lane` of pin p's configuration slot (rule R119). -/
  | pinWrCfg (p : Fin nPins) (lane : Fin 4) (w : Width) (data : Word)
  /-- `PIN.WR.OUT`: write of pin p's output-data slot (rule R120). -/
  | pinWrOut (p : Fin nPins) (w : Width) (data : Word)
  /-- `PIN.WR.IN`: write to pin p's read-only input-data slot (rule R121). -/
  | pinWrIn (p : Fin nPins) (w : Width) (data : Word)
  /-- `PIN.WR.INVALID`: write to an offset that decodes as `NONE` (rule R123). -/
  | pinWrInvalid (off : Word) (w : Width) (data : Word)
  /-- `PIN.EV.SET_INPUT`: external pin-level event (rule R140). -/
  | pinEvSetInput (p : Fin nPins) (level : Bool)
  /-- `PIN.EV.INVALID_PIN`: pin event with an index past the last pin (rule R145). -/
  | pinEvInvalidPin (p : Nat) (level : Bool)
  /-- `PIN.RESET`: reset of the pin controller (rule R146). -/
  | pinReset
  /-- `UART.RD.VERID`: read of slot 0 (rule R162). -/
  | uartRdVerid
  /-- `UART.RD.PARAM`: read of slot 1 (rule R163). -/
  | uartRdParam
  /-- `UART.RD.GLOBAL`: read of slot 2 (rule R164). -/
  | uartRdGlobal
  /-- `UART.RD.PINCFG`: read of slot 3 (rule R165). -/
  | uartRdPincfg
  /-- `UART.RD.BAUD`: read of slot 4 (rule R166). -/
  | uartRdBaud
  /-- `UART.RD.STAT`: read of slot 5 (rule R167). -/
  | uartRdStat
  /-- `UART.RD.CTRL`: read of slot 6 (rule R168). -/
  | uartRdCtrl
  /-- `UART.RD.DATA`: read of slot 7 (rule R169). -/
  | uartRdData
  /-- `UART.RD.MATCH`: read of slot 8 (rule R170). -/
  | uartRdMatch
  /-- `UART.RD.MODIR`: read of slot 9 (rule R171). -/
  | uartRdModir
  /-- `UART.RD.FIFO`: read of slot 10 (rule R172). -/
  | uartRdFifo
  /-- `UART.RD.WATER`: read of slot 11 (rule R173). -/
  | uartRdWater
  /-- `UART.RD.INVALID`: read at or past the end of the register file (rule R174). -/
  | uartRdInvalid (off : Word)
  /-- `UART.WR.VERID`: write of slot 0 (rule R175). -/
  | uartWrVerid (v : Word)
  /-- `UART.WR.PARAM`: write of slot 1 (rule R176). -/
  | uartWrParam (v : Word)
  /-- `UART.WR.GLOBAL`: write of slot 2 (rule R177). -/
  | uartWrGlobal (v : Word)
  /-- `UART.WR.PINCFG`: write of slot 3 (rule R178). -/
  | uartWrPincfg (v : Word)
  /-- `UART.WR.BAUD`: write of slot 4 (rule R179). -/
  | uartWrBaud (v : Word)
  /-- `UART.WR.STAT`: write of slot 5 (rule R180). -/
  | uartWrStat (v : Word)
  /-- `UART.WR.CTRL`: write of slot 6 (rule R181). -/
  | uartWrCtrl (v : Word)
  /-- `UART.WR.DATA`: write of slot 7 (rule R182). -/
  | uartWrData (v : Word)
  /-- `UART.WR.MATCH`: write of slot 8 (rule R183). -/
  | uartWrMatch (v : Word)
  /-- `UART.WR.MODIR`: write of slot 9 (rule R184). -/
  | uartWrModir (v : Word)
  /-- `UART.WR.FIFO`: write of slot 10 (rule R185). -/
  | uartWrFifo (v : Word)
  /-- `UART.WR.WATER`: write of slot 11 (rule R186). -/
  | uartWrWater (v : Word)
  /-- `UART.WR.INVALID`: write at or past the end of the register file (rule R187). -/
  | uartWrInvalid (off : Word) (v : Word)
  /-- `UART.EV.RECEIVE`: external byte-receive event (rule R201). -/
  | uartEvReceive (bytes : List Byte)
  /-- `UART.EV.CAN_RECEIVE`: receive-capacity query (rule R202). -/
  | uartEvCanReceive
  /-- `UART.RESET`: reset of the serial controller (rule R204). -/
  | uartReset
  deriving DecidableEq, Repr

end Sys2Proof
end

