-- ==== Sys2Proof/WellFormed.lean ====
section
/-! DEFINITION. Which parameter sets are well formed (rule R7) and which operations are (rules R64, R83 to R87): the
checks a request has passed when it has been decoded. -/

namespace Sys2Proof

/-- No two numbers of the list are equal. -/
def distinct : List Nat → Bool
  | []      => true
  | x :: xs => !xs.contains x && distinct xs

/-- Two byte ranges, each a start and a length, do not overlap. -/
def apart (a b : Nat × Nat) : Bool := decide (a.1 + a.2 ≤ b.1) || decide (b.1 + b.2 ≤ a.1)

/-- No two byte ranges of the list overlap. -/
def pairwiseApart : List (Nat × Nat) → Bool
  | []      => true
  | x :: xs => xs.all (apart x) && pairwiseApart xs

/-- The byte ranges of rule R7: the single registers, four bytes each, and the three per-pin blocks. -/
def Params.pinRanges (P : Params) : List (Nat × Nat) :=
  [(P.pinOffId0, 4), (P.pinOffId1, 4), (P.pinOffEdgeStatus, 4), (P.pinOffIrqEnable, 4), (P.pinOffEdgeTypeSelect, 4),
   (P.pinOffRisingEnable, 4), (P.pinOffFallingEnable, 4), (P.pinOffFilterEnable, 4),
   (P.pinCfgBase, pinCfgStride * nPins), (P.pinOutBase, nPins), (P.pinInBase, nPins)]

/-- Every offset of a single register and of a per-pin block lies in the window (rule R7). A single register decodes
only at its own offset, so that offset is what must lie in the window. -/
def Params.offsetsInWindow (P : Params) : Bool :=
  [P.pinOffId0, P.pinOffId1, P.pinOffEdgeStatus, P.pinOffIrqEnable, P.pinOffEdgeTypeSelect, P.pinOffRisingEnable,
   P.pinOffFallingEnable, P.pinOffFilterEnable].all (fun o => decide (o < P.pinWindow)) &&
  decide (P.pinCfgBase + pinCfgStride * nPins ≤ P.pinWindow) && decide (P.pinOutBase + nPins ≤ P.pinWindow) &&
  decide (P.pinInBase + nPins ≤ P.pinWindow)

/-- The STAT bit positions (rule R40). -/
def Params.statBits (P : Params) : List Nat :=
  [P.statTdre, P.statTc, P.statRdrf, P.statIdle, P.statOr, P.statNf, P.statFe, P.statPf]

/-- The CTRL bit positions (rule R41). -/
def Params.ctrlBits (P : Params) : List Nat := [P.ctrlTie, P.ctrlRie, P.ctrlTe, P.ctrlRe]

/-- The bits that `EDGE_BIT` maps some pin to, pin by pin (rule R7: injective on those pins). -/
def Params.edgeBits (P : Params) : List Nat := (P.edgeBitTable.take nPins).filterMap id

/-- A parameter set is well formed (rule R7). `UART_OFF[slot]` is `4*i` (rule R39), so its check holds by definition.
DEDUCED (log entry 10): the STAT and CTRL positions are positions of a 32-bit register, and neither window is larger than
the 32-bit offset space. -/
def Params.wf (P : Params) : Bool :=
  P.offsetsInWindow && pairwiseApart P.pinRanges &&
  (P.cfgObeBit != P.cfgIbeBit) && decide (P.cfgObeBit < 32) && decide (P.cfgIbeBit < 32) &&
  distinct P.edgeBits && distinct P.statBits && distinct P.ctrlBits &&
  P.statBits.all (fun b => decide (b < 32)) && P.ctrlBits.all (fun b => decide (b < 32)) &&
  decide (P.pinWindow ≤ 2 ^ 32) && decide (P.uartWindow ≤ 2 ^ 32)

/-- A pin access at a decoded target is aligned to its width (rule R64). -/
def PinTarget.wf (P : Params) (t : PinTarget) (w : Width) : Bool := aligned (t.off P) w

/-- An invalid pin access: decoding as `NONE`, aligned (rules R86, R122, R123). -/
def wfPinInvalid (P : Params) (off : Word) (w : Width) : Bool :=
  (decodePin P off.toNat).isNone && aligned off.toNat w

/-- An invalid serial access: past the register file, aligned (rules R86, R174, R187). -/
def wfUartInvalid (off : Word) : Bool :=
  decide (4 * uartNSlots ≤ off.toNat) && off.toNat % 4 == 0

/-- An operation is well formed: its operands are ones a decoded request can carry. -/
def Instr.wf (P : Params) : Instr → Bool
  | .pinRdId0 w             => PinTarget.wf P .id0 w
  | .pinRdId1 w             => PinTarget.wf P .id1 w
  | .pinRdEdgeStatus w      => PinTarget.wf P .edgeStatus w
  | .pinRdIrqEnable w       => PinTarget.wf P .irqEnable w
  | .pinRdEdgeTypeSelect w  => PinTarget.wf P .edgeTypeSelect w
  | .pinRdRisingEnable w    => PinTarget.wf P .risingEnable w
  | .pinRdFallingEnable w   => PinTarget.wf P .fallingEnable w
  | .pinRdFilterEnable w    => PinTarget.wf P .filterEnable w
  | .pinRdCfg p lane w      => PinTarget.wf P (.cfg p lane) w
  | .pinRdOut p w           => PinTarget.wf P (.out p) w
  | .pinRdIn p w            => PinTarget.wf P (.inp p) w
  | .pinRdInvalid off w     => wfPinInvalid P off w
  | .pinWrId0 w _           => PinTarget.wf P .id0 w
  | .pinWrId1 w _           => PinTarget.wf P .id1 w
  | .pinWrEdgeStatus w _    => PinTarget.wf P .edgeStatus w
  | .pinWrIrqEnable w _     => PinTarget.wf P .irqEnable w
  | .pinWrEdgeTypeSelect w _ => PinTarget.wf P .edgeTypeSelect w
  | .pinWrRisingEnable w _  => PinTarget.wf P .risingEnable w
  | .pinWrFallingEnable w _ => PinTarget.wf P .fallingEnable w
  | .pinWrFilterEnable w _  => PinTarget.wf P .filterEnable w
  | .pinWrCfg p lane w _    => PinTarget.wf P (.cfg p lane) w
  | .pinWrOut p w _         => PinTarget.wf P (.out p) w
  | .pinWrIn p w _          => PinTarget.wf P (.inp p) w
  | .pinWrInvalid off w _   => wfPinInvalid P off w
  | .pinEvSetInput _ _      => true
  | .pinEvInvalidPin p _    => decide (nPins ≤ p)
  | .pinReset               => true
  | .uartRdVerid            => true
  | .uartRdParam            => true
  | .uartRdGlobal           => true
  | .uartRdPincfg           => true
  | .uartRdBaud             => true
  | .uartRdStat             => true
  | .uartRdCtrl             => true
  | .uartRdData             => true
  | .uartRdMatch            => true
  | .uartRdModir            => true
  | .uartRdFifo             => true
  | .uartRdWater            => true
  | .uartRdInvalid off      => wfUartInvalid off
  | .uartWrVerid _          => true
  | .uartWrParam _          => true
  | .uartWrGlobal _         => true
  | .uartWrPincfg _         => true
  | .uartWrBaud _           => true
  | .uartWrStat _           => true
  | .uartWrCtrl _           => true
  | .uartWrData _           => true
  | .uartWrMatch _          => true
  | .uartWrModir _          => true
  | .uartWrFifo _           => true
  | .uartWrWater _          => true
  | .uartWrInvalid off _    => wfUartInvalid off
  | .uartEvReceive _        => true
  | .uartEvCanReceive       => true
  | .uartReset              => true

end Sys2Proof
end

