-- ==== Sys2Proof/Decode.lean ====
section
/-! DEFINITION. Decoding a request into an operation (rules R83 to R88, R231), total and rejecting by name, and the
encoder: the request record of a well-formed operation (rules R80, R90). -/

namespace Sys2Proof

/-- Why a request decodes to no operation and to no diagnostic: the refusals of rule R226. -/
inductive Reject where
  /-- `MISALIGNED` (rules R64, R226). -/
  | misaligned
  /-- `LEVEL_DOMAIN` (rules R147, R226). -/
  | levelDomain
  deriving DecidableEq, Repr

/-- The outcomes of decoding a request (rule R88). -/
inductive Decoded where
  /-- One operation of rule R85. -/
  | instr (i : Instr)
  /-- The diagnostic outcome `INVALID_WIDTH`, before any decode (rules R62, R63, R87). -/
  | invalidWidth (dev : Dev) (dir : Dir) (off : Word) (w : Nat)
  /-- No meaning, by name. -/
  | reject (why : Reject)
  deriving DecidableEq, Repr

/-! ### Decode -/

/-- The read operation of a decoded pin target (rule R85); `none` is `PIN.RD.INVALID`. -/
def pinReadInstr (off : Word) (w : Width) : Option PinTarget → Instr
  | some .id0            => .pinRdId0 w
  | some .id1            => .pinRdId1 w
  | some .edgeStatus     => .pinRdEdgeStatus w
  | some .irqEnable      => .pinRdIrqEnable w
  | some .edgeTypeSelect => .pinRdEdgeTypeSelect w
  | some .risingEnable   => .pinRdRisingEnable w
  | some .fallingEnable  => .pinRdFallingEnable w
  | some .filterEnable   => .pinRdFilterEnable w
  | some (.cfg p lane)   => .pinRdCfg p lane w
  | some (.out p)        => .pinRdOut p w
  | some (.inp p)        => .pinRdIn p w
  | none                 => .pinRdInvalid off w

/-- The write operation of a decoded pin target (rule R85); `none` is `PIN.WR.INVALID`. -/
def pinWriteInstr (off : Word) (data : Word) (w : Width) : Option PinTarget → Instr
  | some .id0            => .pinWrId0 w data
  | some .id1            => .pinWrId1 w data
  | some .edgeStatus     => .pinWrEdgeStatus w data
  | some .irqEnable      => .pinWrIrqEnable w data
  | some .edgeTypeSelect => .pinWrEdgeTypeSelect w data
  | some .risingEnable   => .pinWrRisingEnable w data
  | some .fallingEnable  => .pinWrFallingEnable w data
  | some .filterEnable   => .pinWrFilterEnable w data
  | some (.cfg p lane)   => .pinWrCfg p lane w data
  | some (.out p)        => .pinWrOut p w data
  | some (.inp p)        => .pinWrIn p w data
  | none                 => .pinWrInvalid off w data

/-- The read operation of a decoded serial slot (rule R85); `none` is `UART.RD.INVALID`. -/
def uartReadInstr (off : Word) : Option Slot → Instr
  | some .verid    => .uartRdVerid
  | some .param    => .uartRdParam
  | some .global   => .uartRdGlobal
  | some .pincfg   => .uartRdPincfg
  | some .baud     => .uartRdBaud
  | some .stat     => .uartRdStat
  | some .ctrl     => .uartRdCtrl
  | some .data     => .uartRdData
  | some .matchReg => .uartRdMatch
  | some .modir    => .uartRdModir
  | some .fifo     => .uartRdFifo
  | some .water    => .uartRdWater
  | none           => .uartRdInvalid off

/-- The write operation of a decoded serial slot (rule R85); `none` is `UART.WR.INVALID`. -/
def uartWriteInstr (off : Word) (v : Word) : Option Slot → Instr
  | some .verid    => .uartWrVerid v
  | some .param    => .uartWrParam v
  | some .global   => .uartWrGlobal v
  | some .pincfg   => .uartWrPincfg v
  | some .baud     => .uartWrBaud v
  | some .stat     => .uartWrStat v
  | some .ctrl     => .uartWrCtrl v
  | some .data     => .uartWrData v
  | some .matchReg => .uartWrMatch v
  | some .modir    => .uartWrModir v
  | some .fifo     => .uartWrFifo v
  | some .water    => .uartWrWater v
  | none           => .uartWrInvalid off v

/-- The common entry of a pin access (rules R100, R101): the width, then the alignment, then `decode_pin` (rule R231).
An offset at or past the window's size decodes as `NONE`, as every offset has an outcome (rule R88; log entry 8). -/
def decodePinAccess (P : Params) (dir : Dir) (off : Word) (w : Nat) (mk : Width → Option PinTarget → Instr) : Decoded :=
  match Width.ofBytes w with
  | none    => .invalidWidth .pin dir off w
  | some wd => if aligned off.toNat wd then .instr (mk wd (decodePin P off.toNat)) else .reject .misaligned

/-- The common entry of a serial access (rules R160, R161): the alignment, then the width, then `decode_uart` (rule
R231). -/
def decodeUartAccess (dir : Dir) (off : Word) (w : Nat) (mk : Option Slot → Instr) : Decoded :=
  if off.toNat % 4 ≠ 0 then .reject .misaligned
  else if w ≠ 4 then .invalidWidth .uart dir off w
  else .instr (mk (decodeUart off.toNat))

/-- A pin event: the level, then the index (rules R140, R231). -/
def decodePinEvent (p level : Nat) : Decoded :=
  if 1 < level then .reject .levelDomain
  else if h : p < nPins then .instr (.pinEvSetInput ⟨p, h⟩ (level == 1))
  else .instr (.pinEvInvalidPin p (level == 1))

/-- The decoder: total on every request (rule R88). -/
def decode (P : Params) : Request → Decoded
  | .mmioR .pin off w     => decodePinAccess P .read off w (pinReadInstr off)
  | .mmioW .pin off w v   => decodePinAccess P .write off w (pinWriteInstr off v)
  | .mmioR .uart off w    => decodeUartAccess .read off w (uartReadInstr off)
  | .mmioW .uart off w v  => decodeUartAccess .write off w (uartWriteInstr off v)
  | .reset .pin           => .instr .pinReset
  | .reset .uart          => .instr .uartReset
  | .pinEv p level        => decodePinEvent p level
  | .rxEv bytes           => .instr (.uartEvReceive bytes)
  | .rxQ                  => .instr .uartEvCanReceive

/-! ### Encode -/

/-- The request of a pin read at a target (rules R37, R80). -/
def pinReadReq (P : Params) (t : PinTarget) (w : Width) : Request := .mmioR .pin (BitVec.ofNat 32 (t.off P)) w.bytes

/-- The request of a pin write at a target (rules R37, R80). -/
def pinWriteReq (P : Params) (t : PinTarget) (w : Width) (data : Word) : Request :=
  .mmioW .pin (BitVec.ofNat 32 (t.off P)) w.bytes data

/-- The request of a serial read of a slot (rules R39, R80). -/
def uartReadReq (t : Slot) : Request := .mmioR .uart (BitVec.ofNat 32 t.off) 4

/-- The request of a serial write of a slot (rules R39, R80). -/
def uartWriteReq (t : Slot) (v : Word) : Request := .mmioW .uart (BitVec.ofNat 32 t.off) 4 v

/-- The request of a pin event (rule R80). -/
def pinEventReq (p : Nat) (level : Bool) : Request := .pinEv p (if level then 1 else 0)

/-- The encoder: the request record of an operation (rules R80, R85). -/
def encode (P : Params) : Instr → Request
  | .pinRdId0 w                 => pinReadReq P .id0 w
  | .pinRdId1 w                 => pinReadReq P .id1 w
  | .pinRdEdgeStatus w          => pinReadReq P .edgeStatus w
  | .pinRdIrqEnable w           => pinReadReq P .irqEnable w
  | .pinRdEdgeTypeSelect w      => pinReadReq P .edgeTypeSelect w
  | .pinRdRisingEnable w        => pinReadReq P .risingEnable w
  | .pinRdFallingEnable w       => pinReadReq P .fallingEnable w
  | .pinRdFilterEnable w        => pinReadReq P .filterEnable w
  | .pinRdCfg p lane w          => pinReadReq P (.cfg p lane) w
  | .pinRdOut p w               => pinReadReq P (.out p) w
  | .pinRdIn p w                => pinReadReq P (.inp p) w
  | .pinRdInvalid off w         => .mmioR .pin off w.bytes
  | .pinWrId0 w data            => pinWriteReq P .id0 w data
  | .pinWrId1 w data            => pinWriteReq P .id1 w data
  | .pinWrEdgeStatus w data     => pinWriteReq P .edgeStatus w data
  | .pinWrIrqEnable w data      => pinWriteReq P .irqEnable w data
  | .pinWrEdgeTypeSelect w data => pinWriteReq P .edgeTypeSelect w data
  | .pinWrRisingEnable w data   => pinWriteReq P .risingEnable w data
  | .pinWrFallingEnable w data  => pinWriteReq P .fallingEnable w data
  | .pinWrFilterEnable w data   => pinWriteReq P .filterEnable w data
  | .pinWrCfg p lane w data     => pinWriteReq P (.cfg p lane) w data
  | .pinWrOut p w data          => pinWriteReq P (.out p) w data
  | .pinWrIn p w data           => pinWriteReq P (.inp p) w data
  | .pinWrInvalid off w data    => .mmioW .pin off w.bytes data
  | .pinEvSetInput p level      => pinEventReq p.val level
  | .pinEvInvalidPin p level    => pinEventReq p level
  | .pinReset                   => .reset .pin
  | .uartRdVerid                => uartReadReq .verid
  | .uartRdParam                => uartReadReq .param
  | .uartRdGlobal               => uartReadReq .global
  | .uartRdPincfg               => uartReadReq .pincfg
  | .uartRdBaud                 => uartReadReq .baud
  | .uartRdStat                 => uartReadReq .stat
  | .uartRdCtrl                 => uartReadReq .ctrl
  | .uartRdData                 => uartReadReq .data
  | .uartRdMatch                => uartReadReq .matchReg
  | .uartRdModir                => uartReadReq .modir
  | .uartRdFifo                 => uartReadReq .fifo
  | .uartRdWater                => uartReadReq .water
  | .uartRdInvalid off          => .mmioR .uart off 4
  | .uartWrVerid v              => uartWriteReq .verid v
  | .uartWrParam v              => uartWriteReq .param v
  | .uartWrGlobal v             => uartWriteReq .global v
  | .uartWrPincfg v             => uartWriteReq .pincfg v
  | .uartWrBaud v               => uartWriteReq .baud v
  | .uartWrStat v               => uartWriteReq .stat v
  | .uartWrCtrl v               => uartWriteReq .ctrl v
  | .uartWrData v               => uartWriteReq .data v
  | .uartWrMatch v              => uartWriteReq .matchReg v
  | .uartWrModir v              => uartWriteReq .modir v
  | .uartWrFifo v               => uartWriteReq .fifo v
  | .uartWrWater v              => uartWriteReq .water v
  | .uartWrInvalid off v        => .mmioW .uart off 4 v
  | .uartEvReceive bytes        => .rxEv bytes
  | .uartEvCanReceive           => .rxQ
  | .uartReset                  => .reset .uart

/-! ### The numbering of spec/opcode_table.json

The table numbers the 32 bits of a register access's offset and no other field of its record. DESIGN CHOICE (log entry
12): the other fields' bits follow, the device at bit 32 (0 = PIN), the direction at bit 33 (0 = READ), the width at bits
35..34 (0 = 4 bytes, else the number of bytes) and the write's value at bits 67..36. -/

/-- The register access whose record, numbered so, is `x`. Total on any number. -/
def accessOfBits (x : Nat) : Request :=
  let off : Word := BitVec.ofNat 32 x
  let dev : Dev := if x.testBit 32 then .uart else .pin
  let w := if x / 2 ^ 34 % 4 = 0 then 4 else x / 2 ^ 34 % 4
  if x.testBit 33 then .mmioW dev off w (BitVec.ofNat 32 (x / 2 ^ 36)) else .mmioR dev off w

/-- The request of a table row's word: its lowest `nbits` bits are `w`'s, every bit above them is 0. -/
def tableRequest (nbits w : Nat) : Request := accessOfBits (w % 2 ^ nbits)

/-- The operation the decoder reads from a table row's word, under the default parameters. -/
def decodeTableWord (nbits w : Nat) : Option Instr :=
  match decode defaultParams (tableRequest nbits w) with
  | .instr i => some i
  | _        => none

end Sys2Proof
end

