-- ==== Sys2Proof/Machine/Operands.lean ====
section
/-! DEFINITION. Operand assembly (rule R82) and values across the bus boundary (rules R65 to R67). -/

namespace Sys2Proof.Machine

/-- `zext_32(trunc_{8w}(v))`: what a read of width w delivers of the register's value (rule R65) and the value a write
of width w takes from the bus data (rule R66). -/
def lowBytes (w : Width) (v : Word) : Word := (v.setWidth (8 * w.bytes)).setWidth 32

/-- `v & 1`, the level an output-data write stores (rules R82, R120). -/
def lowBit (v : Word) : Bool := v.getLsbD 0

/-- `v & 0xFF`, the byte a DATA write sends (rules R82, R182). -/
def lowByte (v : Word) : Byte := v.setWidth 8

/-- `zext_32` of a level (rules R110, R111). -/
def levelWord (b : Bool) : Word := if b then 1 else 0

/-- `zext_32` of a received byte (rules R82, R169). -/
def byteWord (b : Byte) : Word := b.setWidth 32

end Sys2Proof.Machine
end

