-- ==== Sys2Proof/Machine/State.lean ====
section
/-! DEFINITION. The state of the two controllers (rules R22, R38), what is observed of them (rules R47, R48), the
parameters, the requests still to be performed and the last reply; and the reasons a step can stop. -/

namespace Sys2Proof.Machine

/-- A pin's direction (rule R31). -/
inductive Direction where
  | input
  | output
  deriving DecidableEq, Repr

/-- The per-pin state of rule R22. A level is a bit, `true` for 1 (rule R8). -/
structure PinSlot where
  /-- `pin.CFG[p]` (rule R30). -/
  cfg            : Word
  /-- `pin.direction[p]` (rule R31). -/
  direction      : Direction
  /-- `pin.ibe[p]` (rule R31). -/
  ibe            : Bool
  /-- `pin.output_level[p]` (rule R32). -/
  outputLevel    : Bool
  /-- `pin.input_level[p]` (rule R33). -/
  inputLevel     : Bool
  /-- `pin.prev_input_level[p]`, hidden (rule R34). -/
  prevInputLevel : Bool
  deriving DecidableEq, Repr

/-- The pin controller's state (rule R22). -/
structure PinState where
  /-- `pin.EDGE_STATUS` (rule R24). -/
  edgeStatus     : Word
  /-- `pin.IRQ_ENABLE` (rule R25). -/
  irqEnable      : Word
  /-- `pin.EDGE_TYPE_SELECT` (rule R26). -/
  edgeTypeSelect : Word
  /-- `pin.RISING_ENABLE` (rule R27). -/
  risingEnable   : Word
  /-- `pin.FALLING_ENABLE` (rule R28). -/
  fallingEnable  : Word
  /-- `pin.FILTER_ENABLE` (rule R29). -/
  filterEnable   : Word
  /-- The fixed-length array indexed by pin number (rule R54). -/
  pins           : Vector PinSlot nPins
  /-- `pin.irq`, the level last given to the interrupt line (rule R36). -/
  irq            : Bool
  deriving DecidableEq, Repr

/-- The serial controller's state (rule R38). VERID and PARAM are constants and DATA stores nothing (rules R39, R42). -/
structure UartState where
  /-- `uart.reg[STAT]` (rule R40). -/
  stat   : Word
  /-- `uart.reg[CTRL]` (rule R41). -/
  ctrl   : Word
  /-- The plain slots GLOBAL, PINCFG, BAUD, MATCH, MODIR, FIFO, WATER (rule R43). -/
  plain  : PlainSlots
  /-- `uart.rx.buf`, the receive FIFO's storage (rule R44). -/
  rxBuf  : Vector Byte rxCap
  /-- `uart.rx.head`, the index of the oldest byte (rule R44). -/
  rxHead : Fin rxCap
  /-- `uart.rx.len`, the occupancy (rule R44). -/
  rxLen  : Nat
  /-- `uart.irq`, the level last given to the interrupt line (rule R46). -/
  irq    : Bool
  deriving DecidableEq, Repr

/-- The diagnostic kinds (rule R221). -/
inductive DiagKind where
  | invalidAddress
  | invalidPin
  | invalidWidth
  | readOnly
  deriving DecidableEq, Repr

/-- What a diagnostic record holds beside its device and kind (rules R47, R221). -/
inductive DiagInfo where
  /-- A register access: its direction, offset and width in bytes. -/
  | access (dir : Dir) (off : Word) (w : Nat)
  /-- A pin event: its pin index. -/
  | pinEvent (p : Nat)
  deriving DecidableEq, Repr

/-- A record `(dev, kind, info)` of the diagnostic log (rule R47). -/
structure DiagRecord where
  dev  : Dev
  kind : DiagKind
  info : DiagInfo
  deriving DecidableEq, Repr

/-- An exit event (rule R81). -/
inductive ExitEvent where
  /-- The interrupt-line setter. -/
  | setIrq (dev : Dev) (level : Bool)
  /-- The pin output callback. -/
  | drivePin (p : Fin nPins) (level : Bool)
  /-- The serial byte sink. -/
  | transmitByte (b : Byte)
  deriving DecidableEq, Repr

/-- What a request returns to its caller (rule R80): `MMIO-R` a word, `RX-EV` and `RX-Q` a count, the others nothing. -/
inductive Reply where
  | none
  | word (v : Word)
  | count (n : Nat)
  deriving DecidableEq, Repr

/-- The whole state. -/
structure State where
  /-- The implementation parameters (rule R6); no step changes them. -/
  params  : Params
  /-- The pin controller (rule R22). -/
  pin     : PinState
  /-- The serial controller (rule R38). -/
  uart    : UartState
  /-- The diagnostic log, oldest record first (rule R47). -/
  log     : List DiagRecord
  /-- The exit trace, oldest event first (rule R48). -/
  trace   : List ExitEvent
  /-- The model's own: what the last performed request returned. -/
  reply   : Reply
  /-- The model's own: the requests issued and not yet performed, the next one first (rule R89: a program). -/
  pending : List Request
  deriving DecidableEq, Repr

/-- The reasons for a fault: none. "No state is a fault state" (rule R224), and no outcome of a request is a fault
(rules R88, R220), so nothing raises one. -/
inductive Fault where
  deriving DecidableEq, Repr

/-- Why a request has no meaning (rule R226). -/
inductive Refusal where
  /-- An operation that has no meaning yet; no arm of `exec` gives it. Safe: the model stops. -/
  | notModelled (mnemonic : String)
  /-- `MISALIGNED`, raised by `perform` for an access that is not aligned (rules R64, R226). Safe: the model stops. -/
  | misaligned
  /-- `LEVEL_DOMAIN`, raised by `perform` for a pin event with a level other than 0 and 1 (rules R147, R226). Safe: the
  model stops. -/
  | levelDomain
  /-- `BAD_PARAMETERS`, raised by `perform` in a state whose parameter set fails rule R7 (rule R226). Safe: the model
  stops. -/
  | badParameters
  deriving DecidableEq, Repr

/-- A pin after reset (rule R251). -/
def PinSlot.reset : PinSlot where
  cfg            := 0
  direction      := .input
  ibe            := false
  outputLevel    := false
  inputLevel     := false
  prevInputLevel := false

/-- The pin controller after reset (rule R251). -/
def PinState.reset : PinState where
  edgeStatus     := 0
  irqEnable      := 0
  edgeTypeSelect := 0
  risingEnable   := 0
  fallingEnable  := 0
  filterEnable   := 0
  pins           := Vector.replicate nPins PinSlot.reset
  irq            := false

/-- The serial controller as constructed with parameters P (rule R252). The FIFO's storage is unspecified and never
read while unoccupied (rule R38): DESIGN CHOICE, zero bytes (log entry 4). -/
def UartState.reset (P : Params) : UartState where
  stat   := (1 : Word) <<< P.statTdre ||| (1 : Word) <<< P.statTc
  ctrl   := 0
  plain  := P.uartReset
  rxBuf  := Vector.replicate rxCap 0
  rxHead := 0
  rxLen  := 0
  irq    := false

/-- The machine right after construction, which performs the reset of both controllers (rules R250 to R252), with an
empty exit trace and an empty log (95_test_vectors.md, "Reset state") and no request issued. -/
def State.reset : State where
  params  := defaultParams
  pin     := PinState.reset
  uart    := UartState.reset defaultParams
  log     := []
  trace   := []
  reply   := .none
  pending := []

end Sys2Proof.Machine
end

