-- ==== Sys2Proof/Machine/Flags.lean ====
section
/-! DEFINITION. Bits of registers (rule R8) and every flag computation of the block: the derived pin bits (rule R31),
the per-pin views of the edge registers (rule R35), edge qualification (rule R141), the STAT flags (rule R40) and the
serial line's condition (rule R200). -/

namespace Sys2Proof.Machine

/-- `bit(v, i)`: 0 for a position past 31 (rule R8). -/
def bit (v : Word) (i : Nat) : Bool := v.getLsbD i

/-- `bit(v, i)` for a position that may be `none`, where it is 0 (rule R8). -/
def bitAt (v : Word) : Option Nat → Bool
  | none   => false
  | some i => bit v i

/-- `1 << i`: 0 for a position past 31 (rule R8). -/
def mask (i : Nat) : Word := (1 : Word) <<< i

/-- `1 << i` for a position that may be `none`, where it is 0 (rule R8). -/
def maskAt : Option Nat → Word
  | none   => 0
  | some i => mask i

/-- `pin.direction[p]` as the function of the configuration word (rule R31). -/
def cfgDirection (P : Params) (v : Word) : Direction := if bit v P.cfgObeBit then .output else .input

/-- `pin.ibe[p]` as the function of the configuration word (rule R31). -/
def cfgIbe (P : Params) (v : Word) : Bool := bit v P.cfgIbeBit

/-- `rising_edge_enabled[p]` (rule R35). -/
def risingEdgeEnabled (P : Params) (c : PinState) (p : Fin nPins) : Bool := bitAt c.risingEnable (P.edgeBit p)

/-- `falling_edge_enabled[p]` (rule R35). -/
def fallingEdgeEnabled (P : Params) (c : PinState) (p : Fin nPins) : Bool := bitAt c.fallingEnable (P.edgeBit p)

/-- `interrupt_enabled[p]` (rule R35). -/
def interruptEnabled (P : Params) (c : PinState) (p : Fin nPins) : Bool := bitAt c.irqEnable (P.edgeBit p)

/-- `pending_interrupt[p]` (rule R35). -/
def pendingInterrupt (P : Params) (c : PinState) (p : Fin nPins) : Bool := bitAt c.edgeStatus (P.edgeBit p)

/-- `edge_qualifies(p, prev, level)` (rule R141). -/
def edgeQualifies (P : Params) (c : PinState) (p : Fin nPins) (prev level : Bool) : Bool :=
  (risingEdgeEnabled P c p && !prev && level) || (fallingEdgeEnabled P c p && prev && !level)

/-- STAT after reset: TDRE and TC set, every other bit clear (rules R40, R204). -/
def statReset (P : Params) : Word := mask P.statTdre ||| mask P.statTc

/-- `W1C_MASK`: the five bits a STAT write can clear (rule R180). -/
def statW1cMask (P : Params) : Word :=
  mask P.statIdle ||| mask P.statOr ||| mask P.statNf ||| mask P.statFe ||| mask P.statPf

/-- What a STAT read computes, stores and returns (rule R167). -/
def statRead (P : Params) (u : UartState) : Word :=
  let s := u.stat ||| mask P.statTdre ||| mask P.statTc
  if u.rxLen > 0 then s ||| mask P.statRdrf else s &&& ~~~(mask P.statRdrf)

/-- The condition `c` of `uart_irq_recompute` (rule R200): `(TIE & TDRE) | (RIE & RDRF)`. -/
def uartIrqCondition (P : Params) (u : UartState) : Bool :=
  (bit u.ctrl P.ctrlTie && bit u.stat P.statTdre) || (bit u.ctrl P.ctrlRie && bit u.stat P.statRdrf)

end Sys2Proof.Machine
end

