-- ==== Sys2Proof/Machine/Ops.lean ====
section
/-! DEFINITION. The named operations the meanings share: raising a diagnostic (the block's only form of exception,
rules R11, R220), emitting an exit event (rule R13), replying to the caller, reading and writing registers, the
interrupt lines (rules R142, R143, R200) and the receive FIFO (rule R205). -/

namespace Sys2Proof.Machine

/-! ### Replies, diagnostics and exit events -/

/-- What the request returns to its caller (rule R80). -/
def State.answer (s : State) (r : Reply) : State := { s with reply := r }

/-- `emit E`: appends the event to the exit trace (rules R13, R48). -/
def State.emit (s : State) (e : ExitEvent) : State := { s with trace := s.trace ++ [e] }

/-- `raise Diag(kind, info)`: appends one record to the diagnostic log and changes no other state (rules R11, R222).
The caller then returns 0 from a read and does nothing for a write (rule R220). -/
def State.raise (s : State) (dev : Dev) (kind : DiagKind) (info : DiagInfo) : State :=
  { s with log := s.log ++ [⟨dev, kind, info⟩] }

/-- The numeric code of a diagnostic kind (rule R221, decision D26). -/
def DiagKind.code : DiagKind → Nat
  | .invalidAddress => 1
  | .invalidPin     => 2
  | .invalidWidth   => 3
  | .readOnly       => 4

/-- What a request that raised a diagnostic returns: 0 for a read, nothing for a write (rules R11, R220). -/
def errorReply : Dir → Reply
  | .read  => .word 0
  | .write => .none

/-- A register access that raises a diagnostic: the record of rule R221, then the read returns 0 or the write does
nothing (rules R11, R220). -/
def rejectAccess (dev : Dev) (kind : DiagKind) (dir : Dir) (off : Word) (w : Nat) (s : State) : State :=
  (s.raise dev kind (.access dir off w)).answer (errorReply dir)

/-- A pin write to a register that takes none: the record names the register's own offset (rules R112, R118, R121). -/
def rejectPinWrite (kind : DiagKind) (t : PinTarget) (w : Width) (s : State) : State :=
  rejectAccess .pin kind .write (BitVec.ofNat 32 (t.off s.params)) w.bytes s

/-! ### Registers -/

/-- Change the pin controller. -/
def State.mapPin (s : State) (f : PinState → PinState) : State := { s with pin := f s.pin }

/-- Change the serial controller. -/
def State.mapUart (s : State) (f : UartState → UartState) : State := { s with uart := f s.uart }

/-- Pin p of the pin controller. -/
def PinState.slot (c : PinState) (p : Fin nPins) : PinSlot := c.pins[p]

/-- Replace pin p of the pin controller. -/
def PinState.setSlot (c : PinState) (p : Fin nPins) (x : PinSlot) : PinState := { c with pins := c.pins.set p x }

/-- The end of a pin register read: the low bytes of the value go to the caller (rules R65, R100). -/
def pinReadReply (w : Width) (v : Word) (s : State) : State := s.answer (.word (lowBytes w v))

/-- The end of a serial register read (rule R160). -/
def uartReadReply (v : Word) (s : State) : State := s.answer (.word v)

/-- A pin register write that only stores: the new pin controller from the old one and the value taken off the bus
(rules R66, R101). -/
def pinStore (f : PinState → Word → PinState) (w : Width) (data : Word) (s : State) : State :=
  (s.mapPin fun c => f c (lowBytes w data)).answer .none

/-- A serial register write that only stores in a plain slot (rules R43, R161). -/
def uartStore (f : PlainSlots → PlainSlots) (s : State) : State :=
  (s.mapUart fun u => { u with plain := f u.plain }).answer .none

/-! ### The pin controller's interrupt line -/

/-- `pin_irq_assert()` (rule R142). -/
def pinIrqAssert (s : State) : State :=
  (s.mapPin fun c => { c with irq := true }).emit (.setIrq .pin true)

/-- `pin_irq_after_clear()` (rule R143). -/
def pinIrqAfterClear (s : State) : State :=
  if s.params.pinIrqLowerOnClear && s.pin.edgeStatus == 0 && s.pin.irq then
    (s.mapPin fun c => { c with irq := false }).emit (.setIrq .pin false)
  else s

/-! ### The serial controller's interrupt line -/

/-- `uart_irq_recompute()` (rule R200): the setter is called only when the level changes. -/
def uartIrqRecompute (s : State) : State :=
  let c := uartIrqCondition s.params s.uart
  if c != s.uart.irq then
    (s.mapUart fun u => { u with irq := c }).emit (.setIrq .uart c)
  else s

/-! ### The receive FIFO -/

/-- The storage index of the byte at position k from the head: `(head + k) mod 16` (rule R44). -/
def rxIndex (u : UartState) (k : Nat) : Fin rxCap := Fin.ofNat rxCap (u.rxHead.val + k)

/-- `fifo_push(b)`; called only when `len < RX_CAP` (rule R205). -/
def fifoPush (u : UartState) (b : Byte) : UartState :=
  { u with rxBuf := u.rxBuf.set (rxIndex u u.rxLen) b, rxLen := u.rxLen + 1 }

/-- The pushes of a receive event, in list order (rule R201). -/
def fifoPushAll (u : UartState) (bytes : List Byte) : UartState := bytes.foldl fifoPush u

/-- The byte at the head of the FIFO, which `fifo_pop()` returns (rule R205). -/
def fifoHead (u : UartState) : Byte := u.rxBuf[u.rxHead]

/-- The FIFO after `fifo_pop()`; called only when `len > 0`. The popped byte's storage is not cleared (rule R205). -/
def fifoDrop (u : UartState) : UartState :=
  { u with rxHead := rxIndex u 1, rxLen := u.rxLen - 1 }

end Sys2Proof.Machine
end

