-- ==== Sys2Proof/Machine/PinEvent.lean ====
section
/-! DEFINITION. The pin controller's events and its reset (rules R140, R145, R146). -/

namespace Sys2Proof.Machine

/-- `PIN.EV.SET_INPUT` (rule R140): ignored while the pin's input buffer is off; else the level is latched, and an edge
that qualifies on an interrupt-enabled pin sets the pin's status bit and asserts the line. The previous level is
updated whether or not interrupts are enabled. The level is a bit: the decoder refuses another one (rule R147). -/
def execPinEvSetInput (p : Fin nPins) (level : Bool) (s : State) : Host.Outcome State Fault Refusal :=
  let x := s.pin.slot p
  if x.ibe = false then .next (s.answer .none)
  else
    let q := interruptEnabled s.params s.pin p && edgeQualifies s.params s.pin p x.prevInputLevel level
    let t := s.mapPin fun c => c.setSlot p { x with inputLevel := level, prevInputLevel := level }
    if q then
      let t := t.mapPin fun c => { c with edgeStatus := c.edgeStatus ||| maskAt (s.params.edgeBit p) }
      .next ((pinIrqAssert t).answer .none)
    else .next (t.answer .none)

/-- `PIN.EV.INVALID_PIN` (rule R145): a diagnostic, nothing changes. -/
def execPinEvInvalidPin (p : Nat) (_level : Bool) (s : State) : Host.Outcome State Fault Refusal :=
  .next ((s.raise .pin .invalidPin (.pinEvent p)).answer .none)

/-- `PIN.RESET` (rule R146): every field of the pin controller takes its reset value, and a line that was high is lowered
through the setter. No pin is driven and the diagnostic log is kept. -/
def execPinReset (s : State) : Host.Outcome State Fault Refusal :=
  let t := s.mapPin fun _ => PinState.reset
  .next ((if s.pin.irq then t.emit (.setIrq .pin false) else t).answer .none)

end Sys2Proof.Machine
end

