-- ==== Sys2Proof/Machine/PinRead.lean ====
section
/-! DEFINITION. The pin controller's reads (rules R102 to R111, R122). The entry checks of rule R100 have been made by
the decoder; a read delivers the low bytes of the register's value and changes no pin controller state. -/

namespace Sys2Proof.Machine

/-- `PIN.RD.ID0` (rule R102). -/
def execPinRdId0 (w : Width) (s : State) : Host.Outcome State Fault Refusal :=
  .next (pinReadReply w s.params.pinIdValue0 s)

/-- `PIN.RD.ID1` (rule R102). -/
def execPinRdId1 (w : Width) (s : State) : Host.Outcome State Fault Refusal :=
  .next (pinReadReply w s.params.pinIdValue1 s)

/-- `PIN.RD.EDGE_STATUS` (rule R103). A read does not clear status bits. -/
def execPinRdEdgeStatus (w : Width) (s : State) : Host.Outcome State Fault Refusal :=
  .next (pinReadReply w s.pin.edgeStatus s)

/-- `PIN.RD.IRQ_ENABLE` (rule R104). -/
def execPinRdIrqEnable (w : Width) (s : State) : Host.Outcome State Fault Refusal :=
  .next (pinReadReply w s.pin.irqEnable s)

/-- `PIN.RD.EDGE_TYPE_SELECT` (rule R105). -/
def execPinRdEdgeTypeSelect (w : Width) (s : State) : Host.Outcome State Fault Refusal :=
  .next (pinReadReply w s.pin.edgeTypeSelect s)

/-- `PIN.RD.RISING_ENABLE` (rule R106). -/
def execPinRdRisingEnable (w : Width) (s : State) : Host.Outcome State Fault Refusal :=
  .next (pinReadReply w s.pin.risingEnable s)

/-- `PIN.RD.FALLING_ENABLE` (rule R107). -/
def execPinRdFallingEnable (w : Width) (s : State) : Host.Outcome State Fault Refusal :=
  .next (pinReadReply w s.pin.fallingEnable s)

/-- `PIN.RD.FILTER_ENABLE` (rule R108). -/
def execPinRdFilterEnable (w : Width) (s : State) : Host.Outcome State Fault Refusal :=
  .next (pinReadReply w s.pin.filterEnable s)

/-- `PIN.RD.CFG` (rule R109): every byte of the slot selects the whole word, of which the low bytes are delivered. -/
def execPinRdCfg (p : Fin nPins) (_lane : Fin 4) (w : Width) (s : State) : Host.Outcome State Fault Refusal :=
  .next (pinReadReply w (s.pin.slot p).cfg s)

/-- `PIN.RD.OUT` (rule R110): one pin's level, whatever its direction and the width. -/
def execPinRdOut (p : Fin nPins) (w : Width) (s : State) : Host.Outcome State Fault Refusal :=
  .next (pinReadReply w (levelWord (s.pin.slot p).outputLevel) s)

/-- `PIN.RD.IN` (rule R111): the last level latched. -/
def execPinRdIn (p : Fin nPins) (w : Width) (s : State) : Host.Outcome State Fault Refusal :=
  .next (pinReadReply w (levelWord (s.pin.slot p).inputLevel) s)

/-- `PIN.RD.INVALID` (rule R122): a diagnostic, and the read returns 0. -/
def execPinRdInvalid (off : Word) (w : Width) (s : State) : Host.Outcome State Fault Refusal :=
  .next (rejectAccess .pin .invalidAddress .read off w.bytes s)

end Sys2Proof.Machine
end

