-- ==== Sys2Proof/Machine/PinWrite.lean ====
section
/-! DEFINITION. The pin controller's writes (rules R112 to R121, R123). The entry checks of rule R101 have been made by
the decoder; the value written is the low bytes of the bus data, zero-extended. -/

namespace Sys2Proof.Machine

/-- `PIN.WR.ID0` (rule R112): an invalid address, the constant is unchanged. -/
def execPinWrId0 (w : Width) (_data : Word) (s : State) : Host.Outcome State Fault Refusal :=
  .next (rejectPinWrite .invalidAddress .id0 w s)

/-- `PIN.WR.ID1` (rule R112): an invalid address, the constant is unchanged. -/
def execPinWrId1 (w : Width) (_data : Word) (s : State) : Host.Outcome State Fault Refusal :=
  .next (rejectPinWrite .invalidAddress .id1 w s)

/-- `PIN.WR.EDGE_STATUS` (rule R113): write-1-to-clear, then the line falls if no status bit remains (rule R143). -/
def execPinWrEdgeStatus (w : Width) (data : Word) (s : State) : Host.Outcome State Fault Refusal :=
  let s := s.mapPin fun c => { c with edgeStatus := c.edgeStatus &&& ~~~(lowBytes w data) }
  .next ((pinIrqAfterClear s).answer .none)

/-- `PIN.WR.IRQ_ENABLE` (rule R114): the register is replaced; no status bit and no line changes. -/
def execPinWrIrqEnable (w : Width) (data : Word) (s : State) : Host.Outcome State Fault Refusal :=
  .next (pinStore (fun c v => { c with irqEnable := v }) w data s)

/-- `PIN.WR.EDGE_TYPE_SELECT` (rule R115): the register is replaced; no status bit and no line changes. -/
def execPinWrEdgeTypeSelect (w : Width) (data : Word) (s : State) : Host.Outcome State Fault Refusal :=
  .next (pinStore (fun c v => { c with edgeTypeSelect := v }) w data s)

/-- `PIN.WR.RISING_ENABLE` (rule R116): the register is replaced; no status bit and no line changes. -/
def execPinWrRisingEnable (w : Width) (data : Word) (s : State) : Host.Outcome State Fault Refusal :=
  .next (pinStore (fun c v => { c with risingEnable := v }) w data s)

/-- `PIN.WR.FALLING_ENABLE` (rule R117): the register is replaced; no status bit and no line changes. -/
def execPinWrFallingEnable (w : Width) (data : Word) (s : State) : Host.Outcome State Fault Refusal :=
  .next (pinStore (fun c v => { c with fallingEnable := v }) w data s)

/-- `PIN.WR.FILTER_ENABLE` (rule R118): stored if `PIN_FILTER_WRITABLE`, else an invalid address. -/
def execPinWrFilterEnable (w : Width) (data : Word) (s : State) : Host.Outcome State Fault Refusal :=
  if s.params.pinFilterWritable then .next (pinStore (fun c v => { c with filterEnable := v }) w data s)
  else .next (rejectPinWrite .invalidAddress .filterEnable w s)

/-- `PIN.WR.CFG` (rule R119): the word is replaced, direction and input buffer are derived from it; the pin is not driven. -/
def execPinWrCfg (p : Fin nPins) (_lane : Fin 4) (w : Width) (data : Word) (s : State) : Host.Outcome State Fault Refusal :=
  let v := lowBytes w data
  let x := { s.pin.slot p with cfg := v, direction := cfgDirection s.params v, ibe := cfgIbe s.params v }
  .next ((s.mapPin fun c => c.setSlot p x).answer .none)

/-- `PIN.WR.OUT` (rule R120): bit 0 is stored; an output pin is driven, always or on a change only. -/
def execPinWrOut (p : Fin nPins) (w : Width) (data : Word) (s : State) : Host.Outcome State Fault Refusal :=
  let x := s.pin.slot p
  let l := lowBit (lowBytes w data)
  let t := (s.mapPin fun c => c.setSlot p { x with outputLevel := l }).answer .none
  if x.direction = .output ∧ (s.params.pinDriveOnChangeOnly = false ∨ l ≠ x.outputLevel) then
    .next (t.emit (.drivePin p l))
  else .next t

/-- `PIN.WR.IN` (rule R121): a read-only violation, nothing changes. -/
def execPinWrIn (p : Fin nPins) (w : Width) (_data : Word) (s : State) : Host.Outcome State Fault Refusal :=
  .next (rejectPinWrite .readOnly (.inp p) w s)

/-- `PIN.WR.INVALID` (rule R123): a diagnostic, nothing changes. -/
def execPinWrInvalid (off : Word) (w : Width) (_data : Word) (s : State) : Host.Outcome State Fault Refusal :=
  .next (rejectAccess .pin .invalidAddress .write off w.bytes s)

end Sys2Proof.Machine
end

