-- ==== Sys2Proof/Machine/UartEvent.lean ====
section
/-! DEFINITION. The serial controller's receive event, capacity query and reset (rules R201, R202, R204). -/

namespace Sys2Proof.Machine

/-- `UART.EV.RECEIVE` (rule R201): with RE clear nothing is accepted; else the first bytes that fit are queued in order and
the rest are silently dropped. A FIFO that is then not empty sets RDRF and recomputes the line. -/
def execUartEvReceive (bytes : List Byte) (s : State) : Host.Outcome State Fault Refusal :=
  if bit s.uart.ctrl s.params.ctrlRe = false then .next (s.answer (.count 0))
  else
    let n := min bytes.length (rxCap - s.uart.rxLen)
    let t := s.mapUart fun u => fifoPushAll u (bytes.take n)
    let t := if 0 < t.uart.rxLen then
        uartIrqRecompute (t.mapUart fun u => { u with stat := u.stat ||| mask s.params.statRdrf })
      else t
    .next (t.answer (.count n))

/-- `UART.EV.CAN_RECEIVE` (rule R202): the free space, whatever RE is. -/
def execUartEvCanReceive (s : State) : Host.Outcome State Fault Refusal :=
  .next (s.answer (.count (rxCap - s.uart.rxLen)))

/-- `UART.RESET` (rule R204): every register takes its reset value and the FIFO is emptied, its storage left as it is; a
line that was high is lowered through the setter. The diagnostic log is kept. -/
def execUartReset (s : State) : Host.Outcome State Fault Refusal :=
  let P := s.params
  let t := s.mapUart fun u =>
    { u with plain := P.uartReset, stat := statReset P, ctrl := 0, rxHead := 0, rxLen := 0, irq := false }
  .next ((if s.uart.irq then t.emit (.setIrq .uart false) else t).answer .none)

end Sys2Proof.Machine
end

