-- ==== Sys2Proof/Machine/UartRead.lean ====
section
/-! DEFINITION. The serial controller's reads (rules R162 to R174). The entry checks of rule R160 have been made by the
decoder, so every access here is four bytes wide. -/

namespace Sys2Proof.Machine

/-- `UART.RD.VERID` (rule R162): a constant. -/
def execUartRdVerid (s : State) : Host.Outcome State Fault Refusal :=
  .next (uartReadReply s.params.uartVeridValue s)

/-- `UART.RD.PARAM` (rule R163): a constant. -/
def execUartRdParam (s : State) : Host.Outcome State Fault Refusal :=
  .next (uartReadReply s.params.uartParamValue s)

/-- `UART.RD.GLOBAL` (rule R164): plain storage. -/
def execUartRdGlobal (s : State) : Host.Outcome State Fault Refusal :=
  .next (uartReadReply s.uart.plain.globalReg s)

/-- `UART.RD.PINCFG` (rule R165): plain storage. -/
def execUartRdPincfg (s : State) : Host.Outcome State Fault Refusal :=
  .next (uartReadReply s.uart.plain.pincfg s)

/-- `UART.RD.BAUD` (rule R166): plain storage. -/
def execUartRdBaud (s : State) : Host.Outcome State Fault Refusal :=
  .next (uartReadReply s.uart.plain.baud s)

/-- `UART.RD.STAT` (rule R167): TDRE, TC and RDRF are recomputed, stored and returned; the line is not recomputed. -/
def execUartRdStat (s : State) : Host.Outcome State Fault Refusal :=
  let v := statRead s.params s.uart
  .next (uartReadReply v (s.mapUart fun u => { u with stat := v }))

/-- `UART.RD.CTRL` (rule R168): all 32 bits as written. -/
def execUartRdCtrl (s : State) : Host.Outcome State Fault Refusal :=
  .next (uartReadReply s.uart.ctrl s)

/-- `UART.RD.DATA` (rule R169): pops the oldest byte; the pop that empties the FIFO clears RDRF, and recomputes the line
if `UART_IRQ_UPDATE_ON_DRAIN`. An empty FIFO gives 0 with no side effect. -/
def execUartRdData (s : State) : Host.Outcome State Fault Refusal :=
  if s.uart.rxLen = 0 then .next (uartReadReply 0 s)
  else
    let v := byteWord (fifoHead s.uart)
    let t := s.mapUart fifoDrop
    if t.uart.rxLen = 0 then
      let t := t.mapUart fun u => { u with stat := u.stat &&& ~~~(mask s.params.statRdrf) }
      .next (uartReadReply v (if s.params.uartIrqUpdateOnDrain then uartIrqRecompute t else t))
    else .next (uartReadReply v t)

/-- `UART.RD.MATCH` (rule R170): plain storage. -/
def execUartRdMatch (s : State) : Host.Outcome State Fault Refusal :=
  .next (uartReadReply s.uart.plain.matchReg s)

/-- `UART.RD.MODIR` (rule R171): plain storage. -/
def execUartRdModir (s : State) : Host.Outcome State Fault Refusal :=
  .next (uartReadReply s.uart.plain.modir s)

/-- `UART.RD.FIFO` (rule R172): plain storage, not the occupancy. -/
def execUartRdFifo (s : State) : Host.Outcome State Fault Refusal :=
  .next (uartReadReply s.uart.plain.fifoReg s)

/-- `UART.RD.WATER` (rule R173): plain storage. -/
def execUartRdWater (s : State) : Host.Outcome State Fault Refusal :=
  .next (uartReadReply s.uart.plain.water s)

/-- `UART.RD.INVALID` (rule R174): a diagnostic, and the read returns 0. -/
def execUartRdInvalid (off : Word) (s : State) : Host.Outcome State Fault Refusal :=
  .next (rejectAccess .uart .invalidAddress .read off 4 s)

end Sys2Proof.Machine
end

