-- ==== Sys2Proof/Machine/UartWrite.lean ====
section
/-! DEFINITION. The serial controller's writes (rules R175 to R187). The entry checks of rule R161 have been made by the
decoder, so every access here is four bytes wide. -/

namespace Sys2Proof.Machine

/-- `UART.WR.VERID` (rule R175): `skip`, no read shows what a write leaves here. -/
def execUartWrVerid (_v : Word) (s : State) : Host.Outcome State Fault Refusal :=
  .next (s.answer .none)

/-- `UART.WR.PARAM` (rule R176): `skip`, no read shows what a write leaves here. -/
def execUartWrParam (_v : Word) (s : State) : Host.Outcome State Fault Refusal :=
  .next (s.answer .none)

/-- `UART.WR.GLOBAL` (rule R177): stored verbatim, no other effect. -/
def execUartWrGlobal (v : Word) (s : State) : Host.Outcome State Fault Refusal :=
  .next (uartStore (fun r => { r with globalReg := v }) s)

/-- `UART.WR.PINCFG` (rule R178): stored verbatim, no other effect. -/
def execUartWrPincfg (v : Word) (s : State) : Host.Outcome State Fault Refusal :=
  .next (uartStore (fun r => { r with pincfg := v }) s)

/-- `UART.WR.BAUD` (rule R179): stored verbatim, no other effect. -/
def execUartWrBaud (v : Word) (s : State) : Host.Outcome State Fault Refusal :=
  .next (uartStore (fun r => { r with baud := v }) s)

/-- `UART.WR.STAT` (rule R180): write-1-to-clear, of the five clearable bits only; the line is not recomputed. -/
def execUartWrStat (v : Word) (s : State) : Host.Outcome State Fault Refusal :=
  .next ((s.mapUart fun u => { u with stat := u.stat &&& ~~~(v &&& statW1cMask s.params) }).answer .none)

/-- `UART.WR.CTRL` (rule R181): the register is replaced and the line recomputed. -/
def execUartWrCtrl (v : Word) (s : State) : Host.Outcome State Fault Refusal :=
  .next ((uartIrqRecompute (s.mapUart fun u => { u with ctrl := v })).answer .none)

/-- `UART.WR.DATA` (rule R182): with TE set the low byte leaves at once; with TE clear the write is silently ignored. -/
def execUartWrData (v : Word) (s : State) : Host.Outcome State Fault Refusal :=
  let t := s.answer .none
  if bit s.uart.ctrl s.params.ctrlTe then .next (t.emit (.transmitByte (lowByte v))) else .next t

/-- `UART.WR.MATCH` (rule R183): stored verbatim, no other effect. -/
def execUartWrMatch (v : Word) (s : State) : Host.Outcome State Fault Refusal :=
  .next (uartStore (fun r => { r with matchReg := v }) s)

/-- `UART.WR.MODIR` (rule R184): stored verbatim, no other effect. -/
def execUartWrModir (v : Word) (s : State) : Host.Outcome State Fault Refusal :=
  .next (uartStore (fun r => { r with modir := v }) s)

/-- `UART.WR.FIFO` (rule R185): stored verbatim, no other effect. -/
def execUartWrFifo (v : Word) (s : State) : Host.Outcome State Fault Refusal :=
  .next (uartStore (fun r => { r with fifoReg := v }) s)

/-- `UART.WR.WATER` (rule R186): stored verbatim, no other effect. -/
def execUartWrWater (v : Word) (s : State) : Host.Outcome State Fault Refusal :=
  .next (uartStore (fun r => { r with water := v }) s)

/-- `UART.WR.INVALID` (rule R187): a diagnostic, nothing changes. -/
def execUartWrInvalid (off : Word) (_v : Word) (s : State) : Host.Outcome State Fault Refusal :=
  .next (rejectAccess .uart .invalidAddress .write off 4 s)

end Sys2Proof.Machine
end

