-- ==== Sys2Proof/Machine/Dispatch.lean ====
section
/-! DEFINITION. The meaning of every operation of rule R85, one arm per constructor. -/

namespace Sys2Proof.Machine

/-- One operation on one state. -/
def exec (i : Instr) (s : State) : Host.Outcome State Fault Refusal :=
  match i with
  | .pinRdId0 w => Sys2Proof.Machine.execPinRdId0 w s
  | .pinRdId1 w => Sys2Proof.Machine.execPinRdId1 w s
  | .pinRdEdgeStatus w => Sys2Proof.Machine.execPinRdEdgeStatus w s
  | .pinRdIrqEnable w => Sys2Proof.Machine.execPinRdIrqEnable w s
  | .pinRdEdgeTypeSelect w => Sys2Proof.Machine.execPinRdEdgeTypeSelect w s
  | .pinRdRisingEnable w => Sys2Proof.Machine.execPinRdRisingEnable w s
  | .pinRdFallingEnable w => Sys2Proof.Machine.execPinRdFallingEnable w s
  | .pinRdFilterEnable w => Sys2Proof.Machine.execPinRdFilterEnable w s
  | .pinRdCfg p lane w => Sys2Proof.Machine.execPinRdCfg p lane w s
  | .pinRdOut p w => Sys2Proof.Machine.execPinRdOut p w s
  | .pinRdIn p w => Sys2Proof.Machine.execPinRdIn p w s
  | .pinRdInvalid off w => Sys2Proof.Machine.execPinRdInvalid off w s
  | .pinWrId0 w data => Sys2Proof.Machine.execPinWrId0 w data s
  | .pinWrId1 w data => Sys2Proof.Machine.execPinWrId1 w data s
  | .pinWrEdgeStatus w data => Sys2Proof.Machine.execPinWrEdgeStatus w data s
  | .pinWrIrqEnable w data => Sys2Proof.Machine.execPinWrIrqEnable w data s
  | .pinWrEdgeTypeSelect w data => Sys2Proof.Machine.execPinWrEdgeTypeSelect w data s
  | .pinWrRisingEnable w data => Sys2Proof.Machine.execPinWrRisingEnable w data s
  | .pinWrFallingEnable w data => Sys2Proof.Machine.execPinWrFallingEnable w data s
  | .pinWrFilterEnable w data => Sys2Proof.Machine.execPinWrFilterEnable w data s
  | .pinWrCfg p lane w data => Sys2Proof.Machine.execPinWrCfg p lane w data s
  | .pinWrOut p w data => Sys2Proof.Machine.execPinWrOut p w data s
  | .pinWrIn p w data => Sys2Proof.Machine.execPinWrIn p w data s
  | .pinWrInvalid off w data => Sys2Proof.Machine.execPinWrInvalid off w data s
  | .pinEvSetInput p level => Sys2Proof.Machine.execPinEvSetInput p level s
  | .pinEvInvalidPin p level => Sys2Proof.Machine.execPinEvInvalidPin p level s
  | .pinReset => Sys2Proof.Machine.execPinReset s
  | .uartRdVerid => Sys2Proof.Machine.execUartRdVerid s
  | .uartRdParam => Sys2Proof.Machine.execUartRdParam s
  | .uartRdGlobal => Sys2Proof.Machine.execUartRdGlobal s
  | .uartRdPincfg => Sys2Proof.Machine.execUartRdPincfg s
  | .uartRdBaud => Sys2Proof.Machine.execUartRdBaud s
  | .uartRdStat => Sys2Proof.Machine.execUartRdStat s
  | .uartRdCtrl => Sys2Proof.Machine.execUartRdCtrl s
  | .uartRdData => Sys2Proof.Machine.execUartRdData s
  | .uartRdMatch => Sys2Proof.Machine.execUartRdMatch s
  | .uartRdModir => Sys2Proof.Machine.execUartRdModir s
  | .uartRdFifo => Sys2Proof.Machine.execUartRdFifo s
  | .uartRdWater => Sys2Proof.Machine.execUartRdWater s
  | .uartRdInvalid off => Sys2Proof.Machine.execUartRdInvalid off s
  | .uartWrVerid v => Sys2Proof.Machine.execUartWrVerid v s
  | .uartWrParam v => Sys2Proof.Machine.execUartWrParam v s
  | .uartWrGlobal v => Sys2Proof.Machine.execUartWrGlobal v s
  | .uartWrPincfg v => Sys2Proof.Machine.execUartWrPincfg v s
  | .uartWrBaud v => Sys2Proof.Machine.execUartWrBaud v s
  | .uartWrStat v => Sys2Proof.Machine.execUartWrStat v s
  | .uartWrCtrl v => Sys2Proof.Machine.execUartWrCtrl v s
  | .uartWrData v => Sys2Proof.Machine.execUartWrData v s
  | .uartWrMatch v => Sys2Proof.Machine.execUartWrMatch v s
  | .uartWrModir v => Sys2Proof.Machine.execUartWrModir v s
  | .uartWrFifo v => Sys2Proof.Machine.execUartWrFifo v s
  | .uartWrWater v => Sys2Proof.Machine.execUartWrWater v s
  | .uartWrInvalid off v => Sys2Proof.Machine.execUartWrInvalid off v s
  | .uartEvReceive bytes => Sys2Proof.Machine.execUartEvReceive bytes s
  | .uartEvCanReceive => Sys2Proof.Machine.execUartEvCanReceive s
  | .uartReset => Sys2Proof.Machine.execUartReset s

end Sys2Proof.Machine
end

