-- ==== Sys2Proof/Machine/Entry.lean ====
section
/-! DEFINITION. Performing one request: the parameter check (rule R7), decoding, and the operation or the outcome of a
request that decodes to none (rules R87, R88). Taking the next request and placing one before it. -/

namespace Sys2Proof.Machine

/-- The outcome of a request rejected by name (rules R64, R147, R226). -/
def rejected : Reject → Host.Outcome State Fault Refusal
  | .misaligned  => .refused .misaligned
  | .levelDomain => .refused .levelDomain

/-- What a decoded request does (rule R88): an operation runs; an access of a wrong width logs `INVALID_WIDTH`, reads as
0 and changes nothing (rules R62, R63). -/
def performDecoded (d : Decoded) (s : State) : Host.Outcome State Fault Refusal :=
  match d with
  | .instr i                    => exec i s
  | .invalidWidth dev dir off w => .next (rejectAccess dev .invalidWidth dir off w s)
  | .reject why                 => rejected why

/-- Performing one request, one atomic step (rules R5, R68). A parameter set that fails rule R7 is refused (rule R226). -/
def perform (r : Request) (s : State) : Host.Outcome State Fault Refusal :=
  if s.params.wf then performDecoded (decode s.params r) s else .refused .badParameters

/-- The next request of the stream and the state without it (rule R71); none when the host has issued no other. -/
def State.takeRequest (s : State) : Option (Request × State) :=
  match s.pending with
  | []        => none
  | r :: rest => some (r, { s with pending := rest })

/-- Issue a request before those already pending. -/
def State.issueFirst (s : State) (r : Request) : State := { s with pending := r :: s.pending }

end Sys2Proof.Machine
end

