-- ==== Sys2Proof/Machine/Step.lean ====
section
/-! DEFINITION. One step of the machine: the oldest request of the serialised stream is performed (rules R5, R71). -/

namespace Sys2Proof.Machine

/-- One step. The controllers are passive (rule R20): with no request issued nothing happens (log entry 6). -/
def step (s : State) : Host.Outcome State Fault Refusal :=
  match s.takeRequest with
  | none        => .next s
  | some (r, t) => perform r t

/-- The state in which the next step performs the request of a table row's word (rule R80; log entries 5 and 12). -/
def State.withFetchWord (s : State) (nbits w : Nat) : State := s.issueFirst (tableRequest nbits w)

end Sys2Proof.Machine
end

