-- ==== Sys2Proof/Safety.lean ====
section
/-! DEFINITION. What holds at every step boundary (rules R29, R31, R40, R49 to R51, R229), as predicates on a state, and
the receive FIFO's contents as a list (rule R44): the terms the statements use. -/

namespace Sys2Proof.Machine

/-- The bytes the receive FIFO holds, oldest first: the byte at position k from the head is
`buf[(head + k) mod 16]` (rule R44). -/
def fifoContents (u : UartState) : List Byte := (List.range u.rxLen).map fun k => u.rxBuf[rxIndex u k]

/-- The diagnostic log of one controller (rule R47). -/
def State.logOf (s : State) (dev : Dev) : List DiagRecord := s.log.filter fun r => r.dev == dev

/-- The controller a request is for (rules R80, R235): each request reaches exactly one. -/
def requestDev : Request → Dev
  | .mmioR dev _ _   => dev
  | .mmioW dev _ _ _ => dev
  | .reset dev       => dev
  | .pinEv _ _       => .pin
  | .rxEv _          => .uart
  | .rxQ             => .uart

/-- The next step performs this operation: the oldest pending request decodes to it. -/
def State.performs (s : State) (i : Instr) : Prop :=
  ∃ r rest, s.pending = r :: rest ∧ decode s.params r = .instr i

/-- `interrupt_enabled[p] = 1` and the event's edge qualifies (rules R35, R140, R141), in the terms of those rules. -/
def edgeInterrupts (s : State) (p : Fin nPins) (level : Bool) : Prop :=
  ∃ b, s.params.edgeBit p = some b ∧ bit s.pin.irqEnable b = true ∧
    ((bit s.pin.risingEnable b = true ∧ (s.pin.slot p).prevInputLevel = false ∧ level = true) ∨
     (bit s.pin.fallingEnable b = true ∧ (s.pin.slot p).prevInputLevel = true ∧ level = false))

/-- Direction and input buffer are the functions of the configuration word (rule R31). -/
def PinsDerived (s : State) : Prop :=
  ∀ p : Fin nPins, (s.pin.slot p).direction = cfgDirection s.params (s.pin.slot p).cfg ∧
    (s.pin.slot p).ibe = cfgIbe s.params (s.pin.slot p).cfg

/-- The hidden previous level is the latched level (rule R50). -/
def PrevIsLatched (s : State) : Prop :=
  ∀ p : Fin nPins, (s.pin.slot p).prevInputLevel = (s.pin.slot p).inputLevel

/-- The pin line is high while a status bit is set; and under `PIN_IRQ_LOWER_ON_CLEAR` it is high only then (rule R51). -/
def PinLineFollows (s : State) : Prop :=
  (s.pin.edgeStatus ≠ 0 → s.pin.irq = true) ∧
  (s.params.pinIrqLowerOnClear = true → s.pin.irq = true → s.pin.edgeStatus ≠ 0)

/-- A filter-enable register that no write reaches holds its reset value (rule R29). -/
def FilterFixed (s : State) : Prop := s.params.pinFilterWritable = false → s.pin.filterEnable = 0

/-- RDRF tells whether the FIFO holds a byte, TDRE and TC are set, the FIFO holds at most 16 bytes (rule R49). -/
def StatFlags (s : State) : Prop :=
  bit s.uart.stat s.params.statRdrf = decide (0 < s.uart.rxLen) ∧
  bit s.uart.stat s.params.statTdre = true ∧ bit s.uart.stat s.params.statTc = true ∧ s.uart.rxLen ≤ rxCap

/-- Every bit of STAT other than TDRE, TC and RDRF is 0 (rule R40). -/
def StatOthersClear (s : State) : Prop :=
  ∀ i, i ≠ s.params.statTdre → i ≠ s.params.statTc → i ≠ s.params.statRdrf → bit s.uart.stat i = false

/-- The serial line: high while its condition holds (rule R229); low when neither interrupt is enabled (rule R254);
and exactly the condition under `UART_IRQ_UPDATE_ON_DRAIN`, where no stale line exists (rule R257). -/
def UartLineFollows (s : State) : Prop :=
  (uartIrqCondition s.params s.uart = true → s.uart.irq = true) ∧
  (s.uart.irq = true → bit s.uart.ctrl s.params.ctrlTie = true ∨ bit s.uart.ctrl s.params.ctrlRie = true) ∧
  (s.params.uartIrqUpdateOnDrain = true → s.uart.irq = uartIrqCondition s.params s.uart)

/-- What holds at every step boundary. -/
structure State.Inv (s : State) : Prop where
  /-- The parameter set is well formed (rule R7). -/
  params : s.params.wf = true
  /-- Rule R31. -/
  pinsDerived : PinsDerived s
  /-- Rule R50. -/
  prevIsLatched : PrevIsLatched s
  /-- Rule R51. -/
  pinLine : PinLineFollows s
  /-- Rule R29. -/
  filterFixed : FilterFixed s
  /-- Rule R49. -/
  statFlags : StatFlags s
  /-- Rule R40. -/
  statOthers : StatOthersClear s
  /-- Rules R229, R254, R257. -/
  uartLine : UartLineFollows s

end Sys2Proof.Machine
end

