-- ==== Sys2Proof/Certificates/Slice0/Obligations.lean ====
section
/-! DEFINITION. The statements for the provers. Every equation `exec i s = .next { s with … }` says the whole next
state: what it does not name is unchanged (the frame). The block has no memory and no program counter (rules R20, R60). -/

open Sys2Proof Sys2Proof.Machine

/-! ### Pin controller: reads -/

/-- Rule R102: the reads give the two constants, which no operation changes, a write or a reset included. -/
def Obligations.PinIdReadsGiveTheirConstants : Prop :=
  (∀ (w : Width) (s : State),
    exec (.pinRdId0 w) s = .next { s with reply := .word (lowBytes w s.params.pinIdValue0) } ∧
    exec (.pinRdId1 w) s = .next { s with reply := .word (lowBytes w s.params.pinIdValue1) }) ∧
  (∀ (i : Instr) (s t : State), exec i s = .next t →
    t.params.pinIdValue0 = s.params.pinIdValue0 ∧ t.params.pinIdValue1 = s.params.pinIdValue1)

/-- Rules R103 to R108. -/
def Obligations.PinControlReadsGiveTheLiveValue : Prop :=
  ∀ (w : Width) (s : State),
    exec (.pinRdEdgeStatus w) s = .next { s with reply := .word (lowBytes w s.pin.edgeStatus) } ∧
    exec (.pinRdIrqEnable w) s = .next { s with reply := .word (lowBytes w s.pin.irqEnable) } ∧
    exec (.pinRdEdgeTypeSelect w) s = .next { s with reply := .word (lowBytes w s.pin.edgeTypeSelect) } ∧
    exec (.pinRdRisingEnable w) s = .next { s with reply := .word (lowBytes w s.pin.risingEnable) } ∧
    exec (.pinRdFallingEnable w) s = .next { s with reply := .word (lowBytes w s.pin.fallingEnable) } ∧
    exec (.pinRdFilterEnable w) s = .next { s with reply := .word (lowBytes w s.pin.filterEnable) }

/-- Rules R109 to R111: a configuration read gives the low bytes of pin p's word whatever byte of the slot is addressed;
a data read gives one pin's level, 0 or 1, at every width. -/
def Obligations.PinBlockReadsGiveOnePin : Prop :=
  ∀ (p : Fin nPins) (lane : Fin 4) (w : Width) (s : State),
    exec (.pinRdCfg p lane w) s = .next { s with reply := .word (lowBytes w s.pin.pins[p].cfg) } ∧
    exec (.pinRdOut p w) s = .next { s with reply := .word (if s.pin.pins[p].outputLevel then 1 else 0) } ∧
    exec (.pinRdIn p w) s = .next { s with reply := .word (if s.pin.pins[p].inputLevel then 1 else 0) }

/-- Rules R65, R66: an access of width w carries the low `8*w` bits, zero-extended. -/
def Obligations.NarrowAccessCarriesTheLowBits : Prop :=
  ∀ (w : Width) (v : Word), (lowBytes w v).toNat = v.toNat % 2 ^ (8 * w.bytes)

/-- Rules R122, R174: an invalid read logs one record, returns 0 and changes nothing else. -/
def Obligations.InvalidReadsLogAndGiveZero : Prop :=
  ∀ (off : Word) (w : Width) (s : State),
    exec (.pinRdInvalid off w) s = .next { s with
      reply := .word 0, log := s.log ++ [⟨.pin, .invalidAddress, .access .read off w.bytes⟩] } ∧
    exec (.uartRdInvalid off) s = .next { s with
      reply := .word 0, log := s.log ++ [⟨.uart, .invalidAddress, .access .read off 4⟩] }

/-! ### Pin controller: writes -/

/-- Rules R112, R121, R123, R187: a write to an identification register, to an input-data slot or to an invalid
offset logs one record and changes nothing else. -/
def Obligations.RejectedWritesOnlyLog : Prop :=
  ∀ (p : Fin nPins) (off : Word) (w : Width) (data : Word) (s : State),
    exec (.pinWrId0 w data) s = .next { s with
      reply := .none,
      log := s.log ++ [⟨.pin, .invalidAddress, .access .write (BitVec.ofNat 32 s.params.pinOffId0) w.bytes⟩] } ∧
    exec (.pinWrId1 w data) s = .next { s with
      reply := .none,
      log := s.log ++ [⟨.pin, .invalidAddress, .access .write (BitVec.ofNat 32 s.params.pinOffId1) w.bytes⟩] } ∧
    exec (.pinWrIn p w data) s = .next { s with
      reply := .none,
      log := s.log ++ [⟨.pin, .readOnly, .access .write (BitVec.ofNat 32 (s.params.pinInBase + p.val)) w.bytes⟩] } ∧
    exec (.pinWrInvalid off w data) s = .next { s with
      reply := .none, log := s.log ++ [⟨.pin, .invalidAddress, .access .write off w.bytes⟩] } ∧
    exec (.uartWrInvalid off data) s = .next { s with
      reply := .none, log := s.log ++ [⟨.uart, .invalidAddress, .access .write off 4⟩] }

/-- Rule R113 with rule R143: write-1-to-clear, and the line falls when no status bit remains, if the parameter says so
and the line was high. -/
def Obligations.EdgeStatusWriteClearsAndLowersTheLine : Prop :=
  ∀ (w : Width) (data : Word) (s : State),
    let left := s.pin.edgeStatus &&& ~~~(lowBytes w data)
    exec (.pinWrEdgeStatus w data) s =
      if s.params.pinIrqLowerOnClear = true ∧ left = 0 ∧ s.pin.irq = true then
        .next { s with
          pin := { s.pin with edgeStatus := left, irq := false }, trace := s.trace ++ [.setIrq .pin false],
          reply := .none }
      else .next { s with pin := { s.pin with edgeStatus := left }, reply := .none }

/-- Rules R113 and R70, the property of §8: the same write-1-to-clear again changes nothing more, on either controller. -/
def Obligations.WriteOneToClearIsIdempotent : Prop :=
  ∀ (w : Width) (v : Word) (s t : State),
    (exec (.pinWrEdgeStatus w v) s = .next t → exec (.pinWrEdgeStatus w v) t = .next t) ∧
    (exec (.uartWrStat v) s = .next t → exec (.uartWrStat v) t = .next t)

/-- Rules R114 to R117: the register is replaced by the value; no status bit, no line, nothing else changes. -/
def Obligations.PinControlWritesReplaceTheRegister : Prop :=
  ∀ (w : Width) (data : Word) (s : State),
    exec (.pinWrIrqEnable w data) s =
      .next { s with pin := { s.pin with irqEnable := lowBytes w data }, reply := .none } ∧
    exec (.pinWrEdgeTypeSelect w data) s =
      .next { s with pin := { s.pin with edgeTypeSelect := lowBytes w data }, reply := .none } ∧
    exec (.pinWrRisingEnable w data) s =
      .next { s with pin := { s.pin with risingEnable := lowBytes w data }, reply := .none } ∧
    exec (.pinWrFallingEnable w data) s =
      .next { s with pin := { s.pin with fallingEnable := lowBytes w data }, reply := .none }

/-- Rule R118: stored if the parameter says the register is writable, else an invalid address. -/
def Obligations.FilterEnableWriteFollowsTheParameter : Prop :=
  ∀ (w : Width) (data : Word) (s : State),
    (s.params.pinFilterWritable = true → exec (.pinWrFilterEnable w data) s =
      .next { s with pin := { s.pin with filterEnable := lowBytes w data }, reply := .none }) ∧
    (s.params.pinFilterWritable = false → exec (.pinWrFilterEnable w data) s = .next { s with
      reply := .none,
      log := s.log ++
        [⟨.pin, .invalidAddress, .access .write (BitVec.ofNat 32 s.params.pinOffFilterEnable) w.bytes⟩] })

/-- Rule R119: pin p's word is replaced, its direction and input buffer are derived from it; every other pin, the
status, the lines and the exit trace are unchanged. -/
def Obligations.CfgWriteReplacesTheWordAndDerives : Prop :=
  ∀ (p : Fin nPins) (lane : Fin 4) (w : Width) (data : Word) (s : State),
    let v := lowBytes w data
    exec (.pinWrCfg p lane w data) s = .next { s with
      pin := { s.pin with pins := s.pin.pins.set p { s.pin.pins[p] with
        cfg := v
        direction := if v.getLsbD s.params.cfgObeBit then .output else .input
        ibe := v.getLsbD s.params.cfgIbeBit } },
      reply := .none }

/-- Rule R120: bit 0 of the value is pin p's level; the pin is driven if it is an output, on every write or, with
`PIN_DRIVE_ON_CHANGE_ONLY`, when the level changes. -/
def Obligations.OutWriteStoresAndDrives : Prop :=
  ∀ (p : Fin nPins) (w : Width) (data : Word) (s : State),
    let l := data.getLsbD 0
    let t : State := { s with
      pin := { s.pin with pins := s.pin.pins.set p { s.pin.pins[p] with outputLevel := l } }, reply := .none }
    let drives := s.pin.pins[p].direction = .output ∧
      (s.params.pinDriveOnChangeOnly = true → l ≠ s.pin.pins[p].outputLevel)
    (drives → exec (.pinWrOut p w data) s = .next { t with trace := s.trace ++ [.drivePin p l] }) ∧
    (¬ drives → exec (.pinWrOut p w data) s = .next t)

/-- Rule R258 with rule R66, at every width: a write of width w zeroes the bits from `8*w` up of a control register that
takes writes and of a configuration word, so a 1-byte write of an enable register leaves bits 31..8 zero. With OBE and IBE
at 21 and 19, a 1- or 2-byte write of a configuration word makes the pin an input with its buffer off. A write-1-to-clear of
width w clears no status bit from `8*w` up. -/
def Obligations.NarrowWritesReplaceTheWholeRegister : Prop :=
  ∀ (p : Fin nPins) (lane : Fin 4) (w : Width) (data : Word) (s : State),
    (∀ t, exec (.pinWrIrqEnable w data) s = .next t → ∀ i, 8 * w.bytes ≤ i → bit t.pin.irqEnable i = false) ∧
    (∀ t, exec (.pinWrEdgeTypeSelect w data) s = .next t → ∀ i, 8 * w.bytes ≤ i → bit t.pin.edgeTypeSelect i = false) ∧
    (∀ t, exec (.pinWrRisingEnable w data) s = .next t → ∀ i, 8 * w.bytes ≤ i → bit t.pin.risingEnable i = false) ∧
    (∀ t, exec (.pinWrFallingEnable w data) s = .next t → ∀ i, 8 * w.bytes ≤ i → bit t.pin.fallingEnable i = false) ∧
    (∀ t, s.params.pinFilterWritable = true → exec (.pinWrFilterEnable w data) s = .next t →
      ∀ i, 8 * w.bytes ≤ i → bit t.pin.filterEnable i = false) ∧
    (∀ t, exec (.pinWrCfg p lane w data) s = .next t →
      (∀ i, 8 * w.bytes ≤ i → bit (t.pin.slot p).cfg i = false) ∧
      (w ≠ .b4 → s.params.cfgObeBit = 21 → s.params.cfgIbeBit = 19 →
        bit (t.pin.slot p).cfg 21 = false ∧ bit (t.pin.slot p).cfg 19 = false ∧
        (t.pin.slot p).direction = .input ∧ (t.pin.slot p).ibe = false)) ∧
    (∀ t, exec (.pinWrEdgeStatus w data) s = .next t →
      ∀ i, 8 * w.bytes ≤ i → bit t.pin.edgeStatus i = bit s.pin.edgeStatus i)

/-! ### Pin controller: events and reset -/

/-- Rules R140 to R142: an accepted pin event. With the input buffer off it is ignored; else the level is latched in
both places, and an edge that qualifies on an interrupt-enabled pin sets the pin's status bit and asserts the line. -/
def Obligations.PinEventLatchesAndQualifies : Prop :=
  ∀ (p : Fin nPins) (level : Bool) (s : State),
    let latched := s.pin.pins.set p { s.pin.pins[p] with inputLevel := level, prevInputLevel := level }
    (s.pin.pins[p].ibe = false → exec (.pinEvSetInput p level) s = .next { s with reply := .none }) ∧
    (s.pin.pins[p].ibe = true → ¬ edgeInterrupts s p level → exec (.pinEvSetInput p level) s =
      .next { s with pin := { s.pin with pins := latched }, reply := .none }) ∧
    (s.pin.pins[p].ibe = true → edgeInterrupts s p level → ∃ b, s.params.edgeBit p = some b ∧
      exec (.pinEvSetInput p level) s = .next { s with
        pin := { s.pin with pins := latched, edgeStatus := s.pin.edgeStatus ||| (1 : Word) <<< b, irq := true },
        trace := s.trace ++ [.setIrq .pin true], reply := .none })

/-- Rules R145 and R147: at the step, a level other than 0 and 1 is refused before the index is looked at; an index
past the last pin logs `INVALID_PIN` and changes nothing else. -/
def Obligations.PinEventChecksLevelThenIndex : Prop :=
  ∀ (p level : Nat) (rest : List Request) (s : State), s.params.wf = true → s.pending = .pinEv p level :: rest →
    (1 < level → step s = .refused .levelDomain) ∧
    (level ≤ 1 → nPins ≤ p → step s = .next { s with
      pending := rest, reply := .none, log := s.log ++ [⟨.pin, .invalidPin, .pinEvent p⟩] })

/-- Rule R145, as an operation. -/
def Obligations.InvalidPinEventOnlyLogs : Prop :=
  ∀ (p : Nat) (level : Bool) (s : State), exec (.pinEvInvalidPin p level) s =
    .next { s with reply := .none, log := s.log ++ [⟨.pin, .invalidPin, .pinEvent p⟩] }

/-- Rules R146 and R251: every field of the pin controller takes its reset value, `SetIrq(PIN, 0)` is emitted only if
the line was high, no pin is driven, the log, the parameters and the serial controller are unchanged. -/
def Obligations.PinResetRestoresEveryField : Prop :=
  ∀ s : State, ∃ t, exec .pinReset s = .next t ∧
    t.pin.edgeStatus = 0 ∧ t.pin.irqEnable = 0 ∧ t.pin.edgeTypeSelect = 0 ∧ t.pin.risingEnable = 0 ∧
    t.pin.fallingEnable = 0 ∧ t.pin.filterEnable = 0 ∧ t.pin.irq = false ∧
    (∀ p : Fin nPins, t.pin.pins[p] = ⟨0, .input, false, false, false, false⟩) ∧
    t.trace = (if s.pin.irq then s.trace ++ [.setIrq .pin false] else s.trace) ∧
    t.params = s.params ∧ t.uart = s.uart ∧ t.log = s.log ∧ t.pending = s.pending ∧ t.reply = .none

/-! ### Serial controller: reads -/

/-- Rules R162 to R166, R168, R170 to R173: the constants and the stored registers, and nothing changes. -/
def Obligations.UartStoredReadsGiveTheRegister : Prop :=
  ∀ s : State,
    exec .uartRdVerid s = .next { s with reply := .word s.params.uartVeridValue } ∧
    exec .uartRdParam s = .next { s with reply := .word s.params.uartParamValue } ∧
    exec .uartRdGlobal s = .next { s with reply := .word s.uart.plain.globalReg } ∧
    exec .uartRdPincfg s = .next { s with reply := .word s.uart.plain.pincfg } ∧
    exec .uartRdBaud s = .next { s with reply := .word s.uart.plain.baud } ∧
    exec .uartRdCtrl s = .next { s with reply := .word s.uart.ctrl } ∧
    exec .uartRdMatch s = .next { s with reply := .word s.uart.plain.matchReg } ∧
    exec .uartRdModir s = .next { s with reply := .word s.uart.plain.modir } ∧
    exec .uartRdFifo s = .next { s with reply := .word s.uart.plain.fifoReg } ∧
    exec .uartRdWater s = .next { s with reply := .word s.uart.plain.water }

/-- Rule R167: a STAT read stores and returns STAT with TDRE and TC set and RDRF telling whether the FIFO holds a byte;
the line is not recomputed and nothing else changes. -/
def Obligations.StatReadRecomputesItsFlags : Prop :=
  ∀ s : State, s.params.wf = true → ∃ v : Word,
    exec .uartRdStat s = .next { s with uart := { s.uart with stat := v }, reply := .word v } ∧
    bit v s.params.statTdre = true ∧ bit v s.params.statTc = true ∧
    bit v s.params.statRdrf = decide (0 < s.uart.rxLen) ∧
    ∀ i, i ≠ s.params.statTdre → i ≠ s.params.statTc → i ≠ s.params.statRdrf → bit v i = bit s.uart.stat i

/-- Rule R169 with the pop of rule R205: an empty FIFO gives 0 and changes nothing; else the oldest byte is returned,
head and length move on, and the pop that empties the FIFO clears RDRF and, with `UART_IRQ_UPDATE_ON_DRAIN`, recomputes
the line. -/
def Obligations.DataReadPopsTheOldestByte : Prop :=
  ∀ s : State,
    let popped : UartState := { s.uart with rxHead := Fin.ofNat 16 (s.uart.rxHead.val + 1), rxLen := s.uart.rxLen - 1 }
    let drained : UartState := { popped with stat := s.uart.stat &&& ~~~((1 : Word) <<< s.params.statRdrf) }
    let v : Word := (s.uart.rxBuf[s.uart.rxHead]).setWidth 32
    let c := (bit drained.ctrl s.params.ctrlTie && bit drained.stat s.params.statTdre) ||
      (bit drained.ctrl s.params.ctrlRie && bit drained.stat s.params.statRdrf)
    (s.uart.rxLen = 0 → exec .uartRdData s = .next { s with reply := .word 0 }) ∧
    (1 < s.uart.rxLen → exec .uartRdData s = .next { s with uart := popped, reply := .word v }) ∧
    (s.uart.rxLen = 1 → s.params.uartIrqUpdateOnDrain = false →
      exec .uartRdData s = .next { s with uart := drained, reply := .word v }) ∧
    (s.uart.rxLen = 1 → s.params.uartIrqUpdateOnDrain = true →
      exec .uartRdData s = .next { s with
        uart := { drained with irq := c }, reply := .word v,
        trace := if c = s.uart.irq then s.trace else s.trace ++ [.setIrq .uart c] })

/-! ### Serial controller: writes -/

/-- Rules R175, R176: `skip`. -/
def Obligations.UartConstantWritesAreDropped : Prop :=
  ∀ (v : Word) (s : State),
    exec (.uartWrVerid v) s = .next { s with reply := .none } ∧
    exec (.uartWrParam v) s = .next { s with reply := .none }

/-- Rules R177 to R179, R183 to R186: the slot is replaced by the value and nothing else changes. -/
def Obligations.UartPlainWritesStoreVerbatim : Prop :=
  ∀ (v : Word) (s : State),
    let stored (r : PlainSlots) : State := { s with uart := { s.uart with plain := r }, reply := .none }
    exec (.uartWrGlobal v) s = .next (stored { s.uart.plain with globalReg := v }) ∧
    exec (.uartWrPincfg v) s = .next (stored { s.uart.plain with pincfg := v }) ∧
    exec (.uartWrBaud v) s = .next (stored { s.uart.plain with baud := v }) ∧
    exec (.uartWrMatch v) s = .next (stored { s.uart.plain with matchReg := v }) ∧
    exec (.uartWrModir v) s = .next (stored { s.uart.plain with modir := v }) ∧
    exec (.uartWrFifo v) s = .next (stored { s.uart.plain with fifoReg := v }) ∧
    exec (.uartWrWater v) s = .next (stored { s.uart.plain with water := v })

/-- Rule R180: bit by bit, a STAT write clears exactly the bits that are 1 in the value and clearable; TDRE, TC, RDRF
and the unnamed bits stay, the line is not recomputed, and nothing else changes. -/
def Obligations.StatWriteClearsOnlyTheFiveFlags : Prop :=
  ∀ (v : Word) (s : State), ∃ x : Word,
    exec (.uartWrStat v) s = .next { s with uart := { s.uart with stat := x }, reply := .none } ∧
    ∀ i, bit x i = (bit s.uart.stat i && !(bit v i &&
      decide (i ∈ [s.params.statIdle, s.params.statOr, s.params.statNf, s.params.statFe, s.params.statPf])))

/-- Rules R181 and R200: CTRL is replaced and the line takes the value `(TIE & TDRE) | (RIE & RDRF)`; the setter is
called only when the level changes. -/
def Obligations.CtrlWriteRecomputesTheLine : Prop :=
  ∀ (v : Word) (s : State),
    let c := (bit v s.params.ctrlTie && bit s.uart.stat s.params.statTdre) ||
      (bit v s.params.ctrlRie && bit s.uart.stat s.params.statRdrf)
    exec (.uartWrCtrl v) s = .next { s with
      uart := { s.uart with ctrl := v, irq := c },
      trace := if c = s.uart.irq then s.trace else s.trace ++ [.setIrq .uart c],
      reply := .none }

/-- Rules R182 and R203: with TE set the low byte is transmitted, once, and nothing is stored; with TE clear the write
does nothing and logs nothing. -/
def Obligations.DataWriteTransmitsTheLowByte : Prop :=
  ∀ (v : Word) (s : State),
    (bit s.uart.ctrl s.params.ctrlTe = true → exec (.uartWrData v) s =
      .next { s with trace := s.trace ++ [.transmitByte (v.setWidth 8)], reply := .none }) ∧
    (bit s.uart.ctrl s.params.ctrlTe = false → exec (.uartWrData v) s = .next { s with reply := .none })

/-! ### Serial controller: events and reset -/

/-- Rule R201: with RE clear nothing is accepted; else the first `n` bytes that fit are queued in order, the rest are
dropped and `n` is returned. If the FIFO then holds a byte, RDRF is set and the line recomputed. -/
def Obligations.ReceiveQueuesWhatFits : Prop :=
  ∀ (bytes : List Byte) (s : State), s.uart.rxLen ≤ rxCap →
    let n := min bytes.length (rxCap - s.uart.rxLen)
    (bit s.uart.ctrl s.params.ctrlRe = false →
      exec (.uartEvReceive bytes) s = .next { s with reply := .count 0 }) ∧
    (bit s.uart.ctrl s.params.ctrlRe = true → ∃ t, exec (.uartEvReceive bytes) s = .next t ∧
      t.reply = .count n ∧ fifoContents t.uart = fifoContents s.uart ++ bytes.take n ∧
      t.uart.rxLen = s.uart.rxLen + n ∧ t.uart.rxHead = s.uart.rxHead ∧
      t.uart.ctrl = s.uart.ctrl ∧ t.uart.plain = s.uart.plain ∧
      (s.uart.rxLen + n = 0 → t.uart.stat = s.uart.stat ∧ t.uart.irq = s.uart.irq ∧ t.trace = s.trace) ∧
      (0 < s.uart.rxLen + n →
        t.uart.stat = s.uart.stat ||| (1 : Word) <<< s.params.statRdrf ∧
        t.uart.irq = uartIrqCondition s.params t.uart ∧
        t.trace = (if t.uart.irq = s.uart.irq then s.trace else s.trace ++ [.setIrq .uart t.uart.irq])) ∧
      t.params = s.params ∧ t.pin = s.pin ∧ t.log = s.log ∧ t.pending = s.pending)

/-- Rule R202: the free space, whatever RE is; nothing changes. -/
def Obligations.CapacityQueryGivesTheFreeSpace : Prop :=
  ∀ s : State, exec .uartEvCanReceive s = .next { s with reply := .count (16 - s.uart.rxLen) }

/-- From rules R204 and R252: every register takes its reset value, the FIFO is emptied, `SetIrq(UART, 0)` is emitted only
if the line was high; the log, the parameters and the pin controller are unchanged. Rule R252 leaves the FIFO's storage
unspecified: that its bytes stay as they are is the model's choice (log entry 4). -/
def Obligations.UartResetRestoresEveryField : Prop :=
  ∀ s : State, exec .uartReset s = .next { s with
    uart := {
      stat := (1 : Word) <<< s.params.statTdre ||| (1 : Word) <<< s.params.statTc
      ctrl := 0
      plain := s.params.uartReset
      rxBuf := s.uart.rxBuf
      rxHead := 0
      rxLen := 0
      irq := false },
    trace := if s.uart.irq then s.trace ++ [.setIrq .uart false] else s.trace,
    reply := .none }

/-- Rule R205 with rule R44: the receive FIFO is a queue. A receive event appends, a DATA read takes the head, the
serial reset empties it, and every other operation leaves it alone. -/
def Obligations.ReceiveFifoRefinesAQueue : Prop :=
  ∀ (i : Instr) (s t : State), s.uart.rxLen ≤ rxCap → exec i s = .next t →
    fifoContents t.uart =
      match i with
      | .uartEvReceive bytes =>
          if bit s.uart.ctrl s.params.ctrlRe then fifoContents s.uart ++ bytes.take (rxCap - (fifoContents s.uart).length)
          else fifoContents s.uart
      | .uartRdData => (fifoContents s.uart).tail
      | .uartReset => []
      | _ => fifoContents s.uart

/-- Rule R205: "Bytes come out in the order they went in". From an empty FIFO with RE set, after a receive event of at
most 16 bytes, the DATA read number k gives byte k (with a `UART_WINDOW` of 1CH or less, by log entry 18). -/
def Obligations.ReceivedBytesAreReadInOrder : Prop :=
  ∀ (bytes : List Byte) (k : Nat) (s : State) (hk : k < bytes.length),
    s.params.wf = true → bit s.uart.ctrl s.params.ctrlRe = true → s.uart.rxLen = 0 → bytes.length ≤ rxCap →
    s.pending = .rxEv bytes :: List.replicate (k + 1) (.mmioR .uart 0x1C 4) →
    ∃ t, Sys2Proof.core.run (k + 2) s = .next t ∧ t.reply = .word ((bytes[k]).setWidth 32) ∧
      fifoContents t.uart = bytes.drop (k + 1)

/-! ### Parameters, decoding and the step -/

/-- Rule R7: what a well-formed parameter set gives, that the defaults are one, and that a request in a state with
another is refused. The last clause also refuses the sets that pass rule R7 and fail only the extra checks of log entry 10
(a STAT or CTRL position past 31, a window larger than the 32-bit offset space): that part is the model's choice. -/
def Obligations.ParametersAreCheckedByRule7 : Prop :=
  defaultParams.wf = true ∧
  (∀ P : Params, P.wf = true →
    (∀ t : PinTarget, t.off P < P.pinWindow) ∧
    P.pinRanges.Pairwise (fun a b => a.1 + a.2 ≤ b.1 ∨ b.1 + b.2 ≤ a.1) ∧
    P.cfgObeBit ≠ P.cfgIbeBit ∧ P.cfgObeBit < 32 ∧ P.cfgIbeBit < 32 ∧
    (∀ (p q : Fin nPins) (b : Nat), P.edgeBit p = some b → P.edgeBit q = some b → p = q) ∧
    P.statBits.Nodup ∧ P.ctrlBits.Nodup) ∧
  (∀ (r : Request) (rest : List Request) (s : State), s.params.wf = false → s.pending = r :: rest →
    step s = .refused .badParameters)

/-- Rules R80, R85: decoding the request of a well-formed operation gives it back, under every parameter set.
For an invalid access at an offset past a window that is an inference (log entry 8), for a serial slot past a
`UART_WINDOW` below 30H the model's choice (log entry 18). -/
def Obligations.DecodeOfEncodeIsTheOperation : Prop :=
  ∀ (P : Params) (i : Instr), P.wf = true → i.wf P = true → decode P (encode P i) = .instr i

/-- Rules R83 to R88: a request that decodes to an operation is that operation's request, and the operation is well
formed: no two requests decode to one operation. Offsets past a window rest on log entries 8 and 18. -/
def Obligations.EncodeOfDecodeIsTheRequest : Prop :=
  ∀ (P : Params) (r : Request) (i : Instr), P.wf = true → decode P r = .instr i → i.wf P = true ∧ encode P i = r

/-- Rules R83, R84: requests written out from the register map (rules R37, R39) and the vectors of 95_test_vectors.md. -/
def Obligations.SampleRequestsDecode : Prop :=
  decode defaultParams (.mmioR .pin 0x010 4) = .instr (.pinRdEdgeStatus .b4) ∧
  decode defaultParams (.mmioR .pin 0x47F 1) = .instr (.pinRdCfg 143 3 .b1) ∧
  decode defaultParams (.mmioR .pin 0x480 4) = .instr (.pinRdInvalid 0x480 .b4) ∧
  decode defaultParams (.mmioW .pin 0x1307 1 0xFF) = .instr (.pinWrOut 7 .b1 0xFF) ∧
  decode defaultParams (.pinEv 144 1) = .instr (.pinEvInvalidPin 144 true) ∧
  decode defaultParams (.mmioR .uart 0x1C 4) = .instr .uartRdData ∧
  decode defaultParams (.mmioW .uart 0x18 4 0x00800000) = .instr (.uartWrCtrl 0x00800000)

/-- Rules R5, R71: a step takes the oldest request; where it decodes to an operation, the step is that operation on the
state without the request. With no request pending the state stays (the model's choice, log entry 6). -/
def Obligations.StepRunsTheDecodedOperation : Prop :=
  (∀ (r : Request) (rest : List Request) (i : Instr) (s : State),
    s.params.wf = true → s.pending = r :: rest → decode s.params r = .instr i →
    step s = exec i { s with pending := rest }) ∧
  (∀ s : State, s.pending = [] → step s = .next s)

/-- Rules R62, R63: on the pin controller a width other than 1, 2 and 4, on the serial controller a width other than 4 at
an aligned offset, logs `INVALID_WIDTH`; the read returns 0, and nothing else changes. -/
def Obligations.WrongWidthOnlyLogs : Prop :=
  ∀ (off v : Word) (w : Nat) (rest : List Request) (s : State), s.params.wf = true →
    let logged (dev : Dev) (dir : Dir) (reply : Reply) : State :=
      { s with pending := rest, reply := reply, log := s.log ++ [⟨dev, .invalidWidth, .access dir off w⟩] }
    (w ∉ [1, 2, 4] →
      (s.pending = .mmioR .pin off w :: rest → step s = .next (logged .pin .read (.word 0))) ∧
      (s.pending = .mmioW .pin off w v :: rest → step s = .next (logged .pin .write .none))) ∧
    (off.toNat % 4 = 0 → w ≠ 4 →
      (s.pending = .mmioR .uart off w :: rest → step s = .next (logged .uart .read (.word 0))) ∧
      (s.pending = .mmioW .uart off w v :: rest → step s = .next (logged .uart .write .none)))

/-- Rule R64: a misaligned access is refused; on the pin controller after the width check and before decode, on the
serial controller first. -/
def Obligations.MisalignedAccessIsRefused : Prop :=
  ∀ (off v : Word) (w : Nat) (rest : List Request) (s : State), s.params.wf = true →
    (w ∈ [1, 2, 4] → off.toNat % w ≠ 0 →
      (s.pending = .mmioR .pin off w :: rest → step s = .refused .misaligned) ∧
      (s.pending = .mmioW .pin off w v :: rest → step s = .refused .misaligned)) ∧
    (off.toNat % 4 ≠ 0 →
      (s.pending = .mmioR .uart off w :: rest → step s = .refused .misaligned) ∧
      (s.pending = .mmioW .uart off w v :: rest → step s = .refused .misaligned))

/-- Rules R86, R100, R101, R160, R161: an aligned pin access at an offset that decodes as `NONE`, and an aligned 4-byte
serial access from `4*UART_NSLOTS` up, log `INVALID_ADDRESS`; a read returns 0 and nothing else changes. The same for a pin
access at or past the window: that, and a serial offset past its window here, is an inference (log entry 8), and no bus
access that rule R61 routes has such an offset. A serial offset below `4*UART_NSLOTS` is not spoken of (log entry 18). -/
def Obligations.OffsetsThatSelectNothingAreInvalid : Prop :=
  (∀ (off v : Word) (w : Width) (rest : List Request) (s : State), s.params.wf = true →
    let logged (dev : Dev) (dir : Dir) (n : Nat) (reply : Reply) : State :=
      { s with pending := rest, reply := reply, log := s.log ++ [⟨dev, .invalidAddress, .access dir off n⟩] }
    (decodePin s.params off.toNat = none ∨ s.params.pinWindow ≤ off.toNat → off.toNat % w.bytes = 0 →
      (s.pending = .mmioR .pin off w.bytes :: rest → step s = .next (logged .pin .read w.bytes (.word 0))) ∧
      (s.pending = .mmioW .pin off w.bytes v :: rest → step s = .next (logged .pin .write w.bytes .none))) ∧
    (4 * uartNSlots ≤ off.toNat → off.toNat % 4 = 0 →
      (s.pending = .mmioR .uart off 4 :: rest → step s = .next (logged .uart .read 4 (.word 0))) ∧
      (s.pending = .mmioW .uart off 4 v :: rest → step s = .next (logged .uart .write 4 .none)))) ∧
  (∀ (P : Params) (dev : Dev) (a : Nat) (off : Word), P.wf = true → P.busOffset dev a = some off →
    off.toNat < P.window dev ∧ a = P.base dev + off.toNat)

/-- Rules R88, R224: with a well-formed parameter set, every request that keeps the host's duties (aligned,
a level of 0 or 1) is performed and the step returns normally. -/
def Obligations.EveryDutifulRequestCompletes : Prop :=
  ∀ (r : Request) (rest : List Request) (s : State), s.params.wf = true → s.pending = r :: rest →
    (match r with
      | .mmioR .pin off w | .mmioW .pin off w _ => w ∈ [1, 2, 4] → off.toNat % w = 0
      | .mmioR .uart off _ | .mmioW .uart off _ _ => off.toNat % 4 = 0
      | .pinEv _ level => level ≤ 1
      | .reset _ | .rxEv _ | .rxQ => True) →
    ∃ t, step s = .next t ∧ t.pending = rest

/-! ### Invariants -/

/-- Every boundary invariant (rules R29, R31, R40, R49 to R51, R229, R254) holds right after construction (rules R251,
R252). -/
def Obligations.ResetStateMeetsTheInvariant : Prop := State.reset.Inv

/-- Rules R251, R252: the values the spec gives for the state right after construction, under the default parameters;
the OPEN slots hold the parameter's value. -/
def Obligations.ResetStateHasTheSpecsValues : Prop :=
  State.reset.params = defaultParams ∧
  State.reset.pin.edgeStatus = 0 ∧ State.reset.pin.irqEnable = 0 ∧ State.reset.pin.edgeTypeSelect = 0 ∧
  State.reset.pin.risingEnable = 0 ∧ State.reset.pin.fallingEnable = 0 ∧ State.reset.pin.filterEnable = 0 ∧
  State.reset.pin.irq = false ∧
  (∀ p : Fin nPins, State.reset.pin.pins[p] = ⟨0, .input, false, false, false, false⟩) ∧
  State.reset.uart.stat = 0x00C00000 ∧ State.reset.uart.ctrl = 0 ∧
  State.reset.uart.plain = State.reset.params.uartReset ∧
  State.reset.uart.rxHead = 0 ∧ State.reset.uart.rxLen = 0 ∧ State.reset.uart.irq = false ∧
  State.reset.log = [] ∧ State.reset.trace = []

/-- Rules R29, R31, R40, R49, R50, R51, R229 and R254: every step keeps the boundary invariants. -/
def Obligations.StepKeepsTheInvariant : Prop :=
  ∀ s t : State, s.Inv → step s = .next t → t.Inv

/-- Rule R262: from a state that meets the invariant, after every step TDRE is 1, and while TIE is set the serial line
is 1: from the CTRL write that sets TIE until CTRL has it clear. -/
def Obligations.TransmitInterruptHoldsTheLine : Prop :=
  ∀ s t : State, s.Inv → step s = .next t →
    bit t.uart.stat t.params.statTdre = true ∧
    (bit t.uart.ctrl t.params.ctrlTie = true → t.uart.irq = true) ∧
    (bit s.uart.ctrl s.params.ctrlTie = true → s.uart.irq = true) ∧
    (∀ v, s.performs (.uartWrCtrl v) → bit v s.params.ctrlTie = true → t.uart.irq = true)

/-- Rule R6: no step changes a parameter. -/
def Obligations.StepKeepsTheParameters : Prop :=
  ∀ s t : State, step s = .next t → t.params = s.params

/-! ### Whole-machine rules -/

/-- Rule R52: a status bit rises only in a qualifying event on its interrupt-enabled pin, and falls only in a
write-1-to-clear that names it or in the pin reset. -/
def Obligations.StatusBitsRiseOnEdgesAndFallOnClears : Prop :=
  ∀ (s t : State) (b : Nat), step s = .next t →
    (bit s.pin.edgeStatus b = false → bit t.pin.edgeStatus b = true →
      ∃ p level, s.performs (.pinEvSetInput p level) ∧ s.params.edgeBit p = some b ∧
        (s.pin.slot p).ibe = true ∧ edgeInterrupts s p level) ∧
    (bit s.pin.edgeStatus b = true → bit t.pin.edgeStatus b = false →
      (∃ w data, s.performs (.pinWrEdgeStatus w data) ∧ bit (lowBytes w data) b = true) ∨ s.performs .pinReset)

/-- Rule R36: the pin line goes to 1 on every qualifying edge, to 0 when a write-1-to-clear leaves the status register 0
(under `PIN_IRQ_LOWER_ON_CLEAR`) and in the pin reset, and in no other step; each change is given to the line. -/
def Obligations.PinLineChangesOnlyByItsRules : Prop :=
  ∀ s t : State, step s = .next t →
    (∀ p level, s.performs (.pinEvSetInput p level) → (s.pin.slot p).ibe = true → edgeInterrupts s p level →
      t.pin.irq = true) ∧
    (∀ w data, s.performs (.pinWrEdgeStatus w data) → s.params.pinIrqLowerOnClear = true → t.pin.edgeStatus = 0 →
      t.pin.irq = false) ∧
    (s.performs .pinReset → t.pin.irq = false) ∧
    (t.pin.irq ≠ s.pin.irq →
      t.trace = s.trace ++ [.setIrq .pin t.pin.irq] ∧
      ((∃ p level, s.performs (.pinEvSetInput p level) ∧ edgeInterrupts s p level ∧ t.pin.irq = true) ∨
       (∃ w data, s.performs (.pinWrEdgeStatus w data) ∧ s.params.pinIrqLowerOnClear = true ∧ t.pin.edgeStatus = 0) ∨
       s.performs .pinReset))

/-- Rules R46 and R200: the serial line changes only in a CTRL write, in a receive event that leaves the FIFO not empty,
in a DATA read that empties it under `UART_IRQ_UPDATE_ON_DRAIN`, or in the serial reset, which sets it to 0; outside the
reset it then takes the value of rule R200's condition; each change is given to the line. -/
def Obligations.UartLineChangesOnlyByItsRules : Prop :=
  ∀ s t : State, step s = .next t →
    (s.performs .uartReset → t.uart.irq = false) ∧
    (t.uart.irq ≠ s.uart.irq →
      t.trace = s.trace ++ [.setIrq .uart t.uart.irq] ∧ t.uart.irq = uartIrqCondition t.params t.uart ∧
      ((∃ v, s.performs (.uartWrCtrl v)) ∨
       (∃ bytes, s.performs (.uartEvReceive bytes) ∧ 0 < t.uart.rxLen) ∨
       (s.performs .uartRdData ∧ s.params.uartIrqUpdateOnDrain = true ∧ s.uart.rxLen = 1) ∨
       s.performs .uartReset))

/-- Rule R33: an input level changes only in a pin event on that pin with its buffer on, to the event's level, or in the
pin reset; no bus write changes one. -/
def Obligations.InputLevelsChangeOnlyByEvents : Prop :=
  ∀ (s t : State) (p : Fin nPins), step s = .next t → (t.pin.slot p).inputLevel ≠ (s.pin.slot p).inputLevel →
    (s.performs (.pinEvSetInput p (t.pin.slot p).inputLevel) ∧ (s.pin.slot p).ibe = true) ∨ s.performs .pinReset

/-- Rules R71, R238, R250: a request to one controller leaves the other as it was. -/
def Obligations.ControllersDoNotTouchEachOther : Prop :=
  ∀ (s t : State) (r : Request) (rest : List Request), s.pending = r :: rest → step s = .next t →
    (requestDev r = .pin → t.uart = s.uart) ∧ (requestDev r = .uart → t.pin = s.pin)

/-- Rules R71, R238: what a request to one controller does and returns does not depend on the other controller's state.
Two states that agree on the parameters, on the request and on the addressed controller end with that controller equal,
the same reply and the same events and records added. -/
def Obligations.ControllersDoNotSeeEachOther : Prop :=
  ∀ (s s' t : State) (r : Request) (rest rest' : List Request),
    s'.params = s.params → s.pending = r :: rest → s'.pending = r :: rest' → step s = .next t →
    (requestDev r = .pin → s'.pin = s.pin) → (requestDev r = .uart → s'.uart = s.uart) →
    ∃ t', step s' = .next t' ∧ t'.reply = t.reply ∧
      (requestDev r = .pin → t'.pin = t.pin) ∧ (requestDev r = .uart → t'.uart = t.uart) ∧
      ∃ records events, t.log = s.log ++ records ∧ t'.log = s'.log ++ records ∧
        t.trace = s.trace ++ events ∧ t'.trace = s'.trace ++ events

/-- Rules R47 and R48: the log and the exit trace only grow. That a step adds at most one entry, and never to both, is what
rule R222 and the pseudocode of the operations (rules R100 to R205) come to. -/
def Obligations.LogAndTraceOnlyGrow : Prop :=
  ∀ s t : State, step s = .next t →
    ∃ records events, t.log = s.log ++ records ∧ t.trace = s.trace ++ events ∧ records.length + events.length ≤ 1

/-- Rule R222: a step that logs changes neither controller and no exit event is emitted; it returns 0 or nothing
(rule R220). The one record it adds has a code of rule R221's table: 2 for a pin event and no other, 4 for a write to an
input-data slot and no other. -/
def Obligations.DiagnosticsChangeNoState : Prop :=
  ∀ s t : State, step s = .next t → t.log ≠ s.log →
    t.pin = s.pin ∧ t.uart = s.uart ∧ t.trace = s.trace ∧ (t.reply = .word 0 ∨ t.reply = .none) ∧
    ∃ r : DiagRecord, t.log = s.log ++ [r] ∧ r.kind.code ∈ [1, 2, 3, 4] ∧
      (r.kind.code = 2 ↔ ∃ p, r.info = .pinEvent p) ∧
      (r.kind.code = 4 ↔ ∃ p w data, s.performs (.pinWrIn p w data))

/-- Rules R144, R203: a pin is driven only by an output-data write to it while it is an output, with the level written;
a byte is transmitted only by a DATA write with TE set, and is its low byte. -/
def Obligations.PinsAndBytesLeaveOnlyOnTheirWrites : Prop :=
  ∀ s t : State, step s = .next t →
    (∀ p level, t.trace = s.trace ++ [.drivePin p level] →
      ∃ w data, s.performs (.pinWrOut p w data) ∧ (s.pin.slot p).direction = .output ∧ level = data.getLsbD 0 ∧
        (t.pin.slot p).outputLevel = level) ∧
    (∀ b, t.trace = s.trace ++ [.transmitByte b] →
      ∃ v, s.performs (.uartWrData v) ∧ bit s.uart.ctrl s.params.ctrlTe = true ∧ b = v.setWidth 8)

/-- Rule R69: in a state that meets the invariant, every read other than a DATA read leaves both controllers and the
exit trace as they were; a STAT read is among them. -/
def Obligations.ReadsOtherThanDataChangeNothing : Prop :=
  ∀ (s t : State) (dev : Dev) (off : Word) (w : Nat) (rest : List Request), s.Inv →
    s.pending = .mmioR dev off w :: rest → step s = .next t → ¬ s.performs .uartRdData →
    t.pin = s.pin ∧ t.uart = s.uart ∧ t.trace = s.trace

/-- Rule R253: a second reset changes nothing and emits nothing. -/
def Obligations.ResetIsIdempotent : Prop :=
  ∀ s t : State,
    (exec .pinReset s = .next t → exec .pinReset t = .next t) ∧
    (exec .uartReset s = .next t → exec .uartReset t = .next t)

/-! ### Consequences software meets -/

/-- Rule R148: the transitions of a pin that has bit b. With IBE set and the interrupt enabled, an event at the latched
level changes nothing; a rise raises the pending bit if the rising edge is enabled, a fall if the falling edge is, and
otherwise the bit stays. A write-1-to-clear of the bit clears it and keeps the level. With the interrupt disabled the
level follows the events and no status bit changes; with IBE clear nothing changes. -/
def Obligations.EdgeStateMachineFollowsTheLevels : Prop :=
  ∀ (p : Fin nPins) (b : Nat) (s : State), PrevIsLatched s → s.params.edgeBit p = some b →
    (∀ level, (s.pin.slot p).ibe = true → bit s.pin.irqEnable b = true →
      ∃ t, exec (.pinEvSetInput p level) s = .next t ∧ (t.pin.slot p).inputLevel = level ∧
        (t.pin.slot p).prevInputLevel = level ∧
        (level = (s.pin.slot p).inputLevel → t.pin.edgeStatus = s.pin.edgeStatus ∧ t.pin.irq = s.pin.irq) ∧
        (level = true → (s.pin.slot p).inputLevel = false →
          bit t.pin.edgeStatus b = (bit s.pin.edgeStatus b || bit s.pin.risingEnable b)) ∧
        (level = false → (s.pin.slot p).inputLevel = true →
          bit t.pin.edgeStatus b = (bit s.pin.edgeStatus b || bit s.pin.fallingEnable b)) ∧
        (∀ i, i ≠ b → bit t.pin.edgeStatus i = bit s.pin.edgeStatus i)) ∧
    (∀ w data, bit (lowBytes w data) b = true →
      ∃ t, exec (.pinWrEdgeStatus w data) s = .next t ∧ bit t.pin.edgeStatus b = false ∧
        (t.pin.slot p).inputLevel = (s.pin.slot p).inputLevel ∧
        (t.pin.slot p).prevInputLevel = (s.pin.slot p).prevInputLevel) ∧
    (∀ level, (s.pin.slot p).ibe = true → bit s.pin.irqEnable b = false →
      ∃ t, exec (.pinEvSetInput p level) s = .next t ∧ (t.pin.slot p).inputLevel = level ∧
        (t.pin.slot p).prevInputLevel = level ∧ t.pin.edgeStatus = s.pin.edgeStatus) ∧
    (∀ level, (s.pin.slot p).ibe = false → exec (.pinEvSetInput p level) s = .next { s with reply := .none })

/-- Rule R260: a transition seen while the pin's interrupt is disabled sets no status bit, and the same level delivered
again after the interrupt is enabled sets none either. -/
def Obligations.EdgesSeenWhileDisabledAreLost : Prop :=
  ∀ (p : Fin nPins) (level : Bool) (w : Width) (v : Word) (s t u r : State),
    bitAt s.pin.irqEnable (s.params.edgeBit p) = false → (s.pin.slot p).ibe = true →
    exec (.pinEvSetInput p level) s = .next t → exec (.pinWrIrqEnable w v) t = .next u →
    exec (.pinEvSetInput p level) u = .next r →
    (r.pin.slot p).inputLevel = level ∧ r.pin.edgeStatus = s.pin.edgeStatus ∧ r.pin.irq = s.pin.irq ∧
      r.trace = s.trace

/-- Rule R261: under the default `EDGE_BIT`, an event on a pin from 32 up sets no status bit and leaves the line, while
its level is latched and can be read. -/
def Obligations.PinsPastTheStatusWordNeverInterrupt : Prop :=
  ∀ (p : Fin nPins) (level : Bool) (s t : State), s.params.edgeBitTable = defaultEdgeBitTable → 32 ≤ p.val →
    exec (.pinEvSetInput p level) s = .next t →
    t.pin.edgeStatus = s.pin.edgeStatus ∧ t.pin.irq = s.pin.irq ∧ t.trace = s.trace ∧
      ((s.pin.slot p).ibe = true →
        exec (.pinRdIn p .b1) t = .next { t with reply := .word (if level then 1 else 0) })

/-- Rule R257: without `UART_IRQ_UPDATE_ON_DRAIN`, with RIE set and TIE clear, the DATA read that empties the FIFO leaves
the line high and RDRF clear, and writing CTRL's own value lowers it; with the parameter the read itself lowers it. -/
def Obligations.DrainedFifoLeavesTheLineHigh : Prop :=
  ∀ s t : State, s.Inv → s.uart.rxLen = 1 → bit s.uart.ctrl s.params.ctrlRie = true →
    bit s.uart.ctrl s.params.ctrlTie = false → exec .uartRdData s = .next t →
    s.uart.irq = true ∧ t.uart.rxLen = 0 ∧ bit t.uart.stat t.params.statRdrf = false ∧
    (s.params.uartIrqUpdateOnDrain = false → t.uart.irq = true ∧ t.trace = s.trace ∧
      ∃ u, exec (.uartWrCtrl t.uart.ctrl) t = .next u ∧ u.uart.irq = false ∧
        u.trace = t.trace ++ [.setIrq .uart false]) ∧
    (s.params.uartIrqUpdateOnDrain = true → t.uart.irq = false ∧ t.trace = s.trace ++ [.setIrq .uart false])

/-- Rules R201, R202: what a receive event with RE set accepts is what fits in the capacity a query announces, and the
capacity then announced is smaller by that much. -/
def Obligations.AcceptedBytesUseUpTheCapacity : Prop :=
  ∀ (bytes : List Byte) (s t : State) (capacity : Nat), bit s.uart.ctrl s.params.ctrlRe = true →
    s.uart.rxLen ≤ rxCap → exec .uartEvCanReceive s = .next { s with reply := .count capacity } →
    exec (.uartEvReceive bytes) s = .next t →
    t.reply = .count (min bytes.length capacity) ∧
    exec .uartEvCanReceive t = .next { t with reply := .count (capacity - min bytes.length capacity) }
end

