-- ==== Sys2Proof/Laws/State.lean ====
section
/-! SUPPORT. One lemma per field per update of the state: later proofs never unfold a record update. -/

namespace Sys2Proof.Machine

variable (s : State)

/-! ### answer -/

@[simp] theorem answer_params (r : Reply) : (s.answer r).params = s.params := rfl
@[simp] theorem answer_pin (r : Reply) : (s.answer r).pin = s.pin := rfl
@[simp] theorem answer_uart (r : Reply) : (s.answer r).uart = s.uart := rfl
@[simp] theorem answer_log (r : Reply) : (s.answer r).log = s.log := rfl
@[simp] theorem answer_trace (r : Reply) : (s.answer r).trace = s.trace := rfl
@[simp] theorem answer_reply (r : Reply) : (s.answer r).reply = r := rfl
@[simp] theorem answer_pending (r : Reply) : (s.answer r).pending = s.pending := rfl

/-! ### emit -/

@[simp] theorem emit_params (e : ExitEvent) : (s.emit e).params = s.params := rfl
@[simp] theorem emit_pin (e : ExitEvent) : (s.emit e).pin = s.pin := rfl
@[simp] theorem emit_uart (e : ExitEvent) : (s.emit e).uart = s.uart := rfl
@[simp] theorem emit_log (e : ExitEvent) : (s.emit e).log = s.log := rfl
@[simp] theorem emit_trace (e : ExitEvent) : (s.emit e).trace = s.trace ++ [e] := rfl
@[simp] theorem emit_reply (e : ExitEvent) : (s.emit e).reply = s.reply := rfl
@[simp] theorem emit_pending (e : ExitEvent) : (s.emit e).pending = s.pending := rfl

/-! ### raise -/

@[simp] theorem raise_params (d : Dev) (k : DiagKind) (i : DiagInfo) : (s.raise d k i).params = s.params := rfl
@[simp] theorem raise_pin (d : Dev) (k : DiagKind) (i : DiagInfo) : (s.raise d k i).pin = s.pin := rfl
@[simp] theorem raise_uart (d : Dev) (k : DiagKind) (i : DiagInfo) : (s.raise d k i).uart = s.uart := rfl
@[simp] theorem raise_log (d : Dev) (k : DiagKind) (i : DiagInfo) : (s.raise d k i).log = s.log ++ [⟨d, k, i⟩] := rfl
@[simp] theorem raise_trace (d : Dev) (k : DiagKind) (i : DiagInfo) : (s.raise d k i).trace = s.trace := rfl
@[simp] theorem raise_reply (d : Dev) (k : DiagKind) (i : DiagInfo) : (s.raise d k i).reply = s.reply := rfl
@[simp] theorem raise_pending (d : Dev) (k : DiagKind) (i : DiagInfo) : (s.raise d k i).pending = s.pending := rfl

/-! ### mapPin -/

@[simp] theorem mapPin_params (f : PinState → PinState) : (s.mapPin f).params = s.params := rfl
@[simp] theorem mapPin_pin (f : PinState → PinState) : (s.mapPin f).pin = f s.pin := rfl
@[simp] theorem mapPin_uart (f : PinState → PinState) : (s.mapPin f).uart = s.uart := rfl
@[simp] theorem mapPin_log (f : PinState → PinState) : (s.mapPin f).log = s.log := rfl
@[simp] theorem mapPin_trace (f : PinState → PinState) : (s.mapPin f).trace = s.trace := rfl
@[simp] theorem mapPin_reply (f : PinState → PinState) : (s.mapPin f).reply = s.reply := rfl
@[simp] theorem mapPin_pending (f : PinState → PinState) : (s.mapPin f).pending = s.pending := rfl

/-! ### mapUart -/

@[simp] theorem mapUart_params (f : UartState → UartState) : (s.mapUart f).params = s.params := rfl
@[simp] theorem mapUart_pin (f : UartState → UartState) : (s.mapUart f).pin = s.pin := rfl
@[simp] theorem mapUart_uart (f : UartState → UartState) : (s.mapUart f).uart = f s.uart := rfl
@[simp] theorem mapUart_log (f : UartState → UartState) : (s.mapUart f).log = s.log := rfl
@[simp] theorem mapUart_trace (f : UartState → UartState) : (s.mapUart f).trace = s.trace := rfl
@[simp] theorem mapUart_reply (f : UartState → UartState) : (s.mapUart f).reply = s.reply := rfl
@[simp] theorem mapUart_pending (f : UartState → UartState) : (s.mapUart f).pending = s.pending := rfl

/-! ### issueFirst -/

@[simp] theorem issueFirst_params (r : Request) : (s.issueFirst r).params = s.params := rfl
@[simp] theorem issueFirst_pin (r : Request) : (s.issueFirst r).pin = s.pin := rfl
@[simp] theorem issueFirst_uart (r : Request) : (s.issueFirst r).uart = s.uart := rfl
@[simp] theorem issueFirst_log (r : Request) : (s.issueFirst r).log = s.log := rfl
@[simp] theorem issueFirst_trace (r : Request) : (s.issueFirst r).trace = s.trace := rfl
@[simp] theorem issueFirst_reply (r : Request) : (s.issueFirst r).reply = s.reply := rfl
@[simp] theorem issueFirst_pending (r : Request) : (s.issueFirst r).pending = r :: s.pending := rfl

/-! ### Pins -/

@[simp] theorem setSlot_slot_self (c : PinState) (p : Fin nPins) (x : PinSlot) : (c.setSlot p x).slot p = x := by
  simp [PinState.setSlot, PinState.slot]

theorem setSlot_slot_of_ne (c : PinState) (p q : Fin nPins) (x : PinSlot) (h : q ≠ p) :
    (c.setSlot p x).slot q = c.slot q := by
  simp [PinState.setSlot, PinState.slot, Fin.val_ne_of_ne h.symm]

theorem setSlot_slot (c : PinState) (p q : Fin nPins) (x : PinSlot) :
    (c.setSlot p x).slot q = if q = p then x else c.slot q := by
  by_cases h : q = p
  · simp [h]
  · simp [h, setSlot_slot_of_ne]

@[simp] theorem setSlot_edgeStatus (c : PinState) (p : Fin nPins) (x : PinSlot) : (c.setSlot p x).edgeStatus = c.edgeStatus := rfl
@[simp] theorem setSlot_irqEnable (c : PinState) (p : Fin nPins) (x : PinSlot) : (c.setSlot p x).irqEnable = c.irqEnable := rfl
@[simp] theorem setSlot_edgeTypeSelect (c : PinState) (p : Fin nPins) (x : PinSlot) : (c.setSlot p x).edgeTypeSelect = c.edgeTypeSelect := rfl
@[simp] theorem setSlot_risingEnable (c : PinState) (p : Fin nPins) (x : PinSlot) : (c.setSlot p x).risingEnable = c.risingEnable := rfl
@[simp] theorem setSlot_fallingEnable (c : PinState) (p : Fin nPins) (x : PinSlot) : (c.setSlot p x).fallingEnable = c.fallingEnable := rfl
@[simp] theorem setSlot_filterEnable (c : PinState) (p : Fin nPins) (x : PinSlot) : (c.setSlot p x).filterEnable = c.filterEnable := rfl
@[simp] theorem setSlot_irq (c : PinState) (p : Fin nPins) (x : PinSlot) : (c.setSlot p x).irq = c.irq := rfl

@[simp] theorem reset_slot (p : Fin nPins) : PinState.reset.slot p = PinSlot.reset := by
  simp [PinState.reset, PinState.slot]

/-! ### The slot of a pin after an update that keeps the array -/

@[simp] theorem slot_with_edgeStatus (c : PinState) (v : Word) (p : Fin nPins) :
    PinState.slot ({ c with edgeStatus := v }) p = c.slot p := rfl
@[simp] theorem slot_with_irqEnable (c : PinState) (v : Word) (p : Fin nPins) :
    PinState.slot ({ c with irqEnable := v }) p = c.slot p := rfl
@[simp] theorem slot_with_edgeTypeSelect (c : PinState) (v : Word) (p : Fin nPins) :
    PinState.slot ({ c with edgeTypeSelect := v }) p = c.slot p := rfl
@[simp] theorem slot_with_risingEnable (c : PinState) (v : Word) (p : Fin nPins) :
    PinState.slot ({ c with risingEnable := v }) p = c.slot p := rfl
@[simp] theorem slot_with_fallingEnable (c : PinState) (v : Word) (p : Fin nPins) :
    PinState.slot ({ c with fallingEnable := v }) p = c.slot p := rfl
@[simp] theorem slot_with_filterEnable (c : PinState) (v : Word) (p : Fin nPins) :
    PinState.slot ({ c with filterEnable := v }) p = c.slot p := rfl
@[simp] theorem slot_with_irq (c : PinState) (b : Bool) (p : Fin nPins) :
    PinState.slot ({ c with irq := b }) p = c.slot p := rfl

end Sys2Proof.Machine
end

