-- ==== Sys2Proof/Laws/Flags.lean ====
section
/-! SUPPORT. The small lemmas of bits and masks (rule R8), of the operand forms (rules R65, R82) and of the flags. -/

namespace Sys2Proof.Machine

@[simp] theorem bit_zero (i : Nat) : bit 0#32 i = false := by simp [bit]

@[simp] theorem bit_or (a b : Word) (i : Nat) : bit (a ||| b) i = (bit a i || bit b i) := by simp [bit]

@[simp] theorem bit_and (a b : Word) (i : Nat) : bit (a &&& b) i = (bit a i && bit b i) := by simp [bit]

@[simp] theorem bit_not (a : Word) (i : Nat) : bit (~~~a) i = (decide (i < 32) && !bit a i) := by simp [bit]

theorem bit_mask (i j : Nat) : bit (mask i) j = decide (i = j ∧ j < 32) := by
  simp only [bit, mask, BitVec.getLsbD_shiftLeft]
  rcases Nat.lt_trichotomy i j with h | h | h
  · have : ¬ j < i := by omega
    have h0 : j - i ≠ 0 := by omega
    have hne : i ≠ j := by omega
    simp [h0, hne]
  · subst h; simp
  · have hne : i ≠ j := by omega
    simp [h, hne]

theorem bit_lt {v : Word} {i : Nat} (h : bit v i = true) : i < 32 := by
  by_contra hn
  simp [bit, BitVec.getLsbD_of_ge v i (by omega)] at h

theorem word_ext {a b : Word} (h : ∀ i, i < 32 → bit a i = bit b i) : a = b :=
  BitVec.eq_of_getLsbD_eq fun i hi => h i hi

theorem bitAt_maskAt (o q : Option Nat) : bitAt (maskAt o) q = decide (o = q ∧ ∃ i, q = some i ∧ i < 32) := by
  cases o <;> cases q <;> simp [bitAt, maskAt, bit_mask]

@[simp] theorem bitAt_or (a b : Word) (o : Option Nat) : bitAt (a ||| b) o = (bitAt a o || bitAt b o) := by
  cases o <;> simp [bitAt]

/-- A bit position that reads as 1 in some word is one a mask can set. -/
theorem maskAt_ne_zero {v : Word} {o : Option Nat} (h : bitAt v o = true) : maskAt o ≠ 0 := by
  cases o with
  | none => simp [bitAt] at h
  | some i =>
    intro h0
    have := bit_mask i i
    simp only [maskAt] at h0
    simp [h0, bit_lt h] at this

theorem or_ne_zero {a b : Word} (h : b ≠ 0) : a ||| b ≠ 0 := by
  intro h0
  apply h
  apply word_ext
  intro i _
  have hi : bit (a ||| b) i = bit 0#32 i := congrArg (bit · i) h0
  rw [bit_or, bit_zero, Bool.or_eq_false_iff] at hi
  simp [hi.2]

/-- What a read of width w delivers, as a number (rule R65). -/
theorem lowBytes_toNat (w : Width) (v : Word) : (lowBytes w v).toNat = v.toNat % 2 ^ (8 * w.bytes) := by
  cases w <;> simp [lowBytes, Width.bytes] <;> omega

/-- The bits a narrow access carries (rules R65, R66). -/
theorem bit_lowBytes (w : Width) (v : Word) (i : Nat) :
    bit (lowBytes w v) i = (decide (i < 8 * w.bytes) && bit v i) := by
  have hv : bit v i = true → i < 32 := bit_lt
  have h8 : i < 8 → i < 32 := by omega
  have h16 : i < 16 → i < 32 := by omega
  rw [Bool.eq_iff_iff]
  simp only [bit, lowBytes, BitVec.getLsbD_setWidth, Bool.and_eq_true, decide_eq_true_eq] at hv ⊢
  cases w <;> simp only [Width.bytes, Nat.reduceMul] <;> tauto

/-- A level read at any width is 0 or 1 (rules R110, R111). -/
@[simp] theorem lowBytes_levelWord (w : Width) (b : Bool) : lowBytes w (levelWord b) = if b then 1 else 0 := by
  cases w <;> cases b <;> rfl

/-- The level a write of any width stores is bit 0 of the bus data (rules R66, R120). -/
@[simp] theorem lowBit_lowBytes (w : Width) (v : Word) : lowBit (lowBytes w v) = v.getLsbD 0 := by
  have := bit_lowBytes w v 0
  cases w <;> simpa [bit, lowBit, Width.bytes] using this

/-- The condition of an interrupting event, as the meaning computes it (rules R140, R141). -/
theorem edgeInterrupts_iff (s : State) (p : Fin nPins) (level : Bool) :
    edgeInterrupts s p level ↔
      (interruptEnabled s.params s.pin p &&
        edgeQualifies s.params s.pin p (s.pin.slot p).prevInputLevel level) = true := by
  unfold edgeInterrupts interruptEnabled edgeQualifies risingEdgeEnabled fallingEdgeEnabled
  cases s.params.edgeBit p with
  | none => simp [bitAt]
  | some b => cases level <;> cases (s.pin.slot p).prevInputLevel <;> simp [bitAt]

@[simp] theorem lowBytes_b4 (v : Word) : lowBytes .b4 v = v := by simp [lowBytes, Width.bytes]

/-- The line's condition does not read the line. -/
@[simp] theorem uartIrqCondition_with_irq (P : Params) (u : UartState) (b : Bool) :
    uartIrqCondition P { u with irq := b } = uartIrqCondition P u := rfl

end Sys2Proof.Machine
end

