-- ==== Sys2Proof/Laws/Ops.lean ====
section
/-! SUPPORT. One lemma per shared operation that says everything it does, and the receive FIFO as a queue. -/

namespace Sys2Proof.Machine

/-! ### Diagnostics -/

/-- Each kind has a code of its own, from 1 to 4 (rule R221). -/
theorem DiagKind.code_injective : Function.Injective DiagKind.code := by
  intro a b h; cases a <;> cases b <;> first | rfl | (exact absurd h (by decide))

theorem DiagKind.code_mem (k : DiagKind) : 1 ≤ k.code ∧ k.code ≤ 4 := by cases k <;> decide

/-! ### The two interrupt lines -/

/-- `pin_irq_after_clear()` as one record update (rule R143). -/
theorem pinIrqAfterClear_eq (s : State) :
    pinIrqAfterClear s =
      if s.params.pinIrqLowerOnClear = true ∧ s.pin.edgeStatus = 0 ∧ s.pin.irq = true then
        { s with pin := { s.pin with irq := false }, trace := s.trace ++ [.setIrq .pin false] }
      else s := by
  unfold pinIrqAfterClear
  by_cases h1 : s.params.pinIrqLowerOnClear = true <;> by_cases h2 : s.pin.edgeStatus = 0 <;>
    by_cases h3 : s.pin.irq = true <;> simp [h1, h2, h3, State.mapPin, State.emit]

/-- `uart_irq_recompute()` as one record update (rule R200). -/
theorem uartIrqRecompute_eq (s : State) :
    uartIrqRecompute s =
      { s with
        uart := { s.uart with irq := uartIrqCondition s.params s.uart }
        trace := if uartIrqCondition s.params s.uart = s.uart.irq then s.trace
          else s.trace ++ [.setIrq .uart (uartIrqCondition s.params s.uart)] } := by
  unfold uartIrqRecompute
  by_cases h : uartIrqCondition s.params s.uart = s.uart.irq
  · simp [h]
  · simp [h, State.mapUart, State.emit]

@[simp] theorem uartIrqRecompute_params (s : State) : (uartIrqRecompute s).params = s.params := by
  simp [uartIrqRecompute_eq]

@[simp] theorem uartIrqRecompute_pin (s : State) : (uartIrqRecompute s).pin = s.pin := by
  simp [uartIrqRecompute_eq]

@[simp] theorem uartIrqRecompute_uart (s : State) :
    (uartIrqRecompute s).uart = { s.uart with irq := uartIrqCondition s.params s.uart } := by
  simp [uartIrqRecompute_eq]

@[simp] theorem uartIrqRecompute_log (s : State) : (uartIrqRecompute s).log = s.log := by
  simp [uartIrqRecompute_eq]

@[simp] theorem uartIrqRecompute_pending (s : State) : (uartIrqRecompute s).pending = s.pending := by
  simp [uartIrqRecompute_eq]

@[simp] theorem pinIrqAfterClear_params (s : State) : (pinIrqAfterClear s).params = s.params := by
  rw [pinIrqAfterClear_eq]; split <;> rfl

@[simp] theorem pinIrqAfterClear_uart (s : State) : (pinIrqAfterClear s).uart = s.uart := by
  rw [pinIrqAfterClear_eq]; split <;> rfl

@[simp] theorem pinIrqAfterClear_log (s : State) : (pinIrqAfterClear s).log = s.log := by
  rw [pinIrqAfterClear_eq]; split <;> rfl

@[simp] theorem pinIrqAfterClear_pending (s : State) : (pinIrqAfterClear s).pending = s.pending := by
  rw [pinIrqAfterClear_eq]; split <;> rfl

/-- All that `pin_irq_after_clear()` changes in the pin controller is the line. -/
theorem pinIrqAfterClear_pin (s : State) :
    (pinIrqAfterClear s).pin =
      { s.pin with irq := s.pin.irq && !(s.params.pinIrqLowerOnClear && s.pin.edgeStatus == 0) } := by
  rw [pinIrqAfterClear_eq]
  by_cases h1 : s.params.pinIrqLowerOnClear = true <;> by_cases h2 : s.pin.edgeStatus = 0 <;>
    by_cases h3 : s.pin.irq = true <;> (cases hs : s.pin; simp_all)

/-! ### A rejected access -/

/-- A rejected access appends one record, replies, and changes nothing else (rules R11, R222). -/
theorem rejectAccess_eq (dev : Dev) (kind : DiagKind) (dir : Dir) (off : Word) (w : Nat) (s : State) :
    rejectAccess dev kind dir off w s =
      { s with log := s.log ++ [⟨dev, kind, .access dir off w⟩], reply := errorReply dir } := rfl

theorem rejectPinWrite_eq (kind : DiagKind) (t : PinTarget) (w : Width) (s : State) :
    rejectPinWrite kind t w s =
      { s with log := s.log ++ [⟨.pin, kind, .access .write (BitVec.ofNat 32 (t.off s.params)) w.bytes⟩],
               reply := .none } := rfl

/-! ### The receive FIFO -/

@[simp] theorem rxIndex_val (u : UartState) (k : Nat) : (rxIndex u k).val = (u.rxHead.val + k) % 16 := rfl

@[simp] theorem fifoContents_length (u : UartState) : (fifoContents u).length = u.rxLen := by simp [fifoContents]

theorem fifoContents_get (u : UartState) (k : Nat) (h : k < (fifoContents u).length) :
    (fifoContents u)[k] = u.rxBuf[rxIndex u k] := by simp [fifoContents]

@[simp] theorem fifoPush_len (u : UartState) (b : Byte) : (fifoPush u b).rxLen = u.rxLen + 1 := rfl

@[simp] theorem fifoPush_head (u : UartState) (b : Byte) : (fifoPush u b).rxHead = u.rxHead := rfl

/-- A push that fits appends at the tail (rule R205). -/
theorem fifoPush_contents (u : UartState) (b : Byte) (h : u.rxLen < rxCap) :
    fifoContents (fifoPush u b) = fifoContents u ++ [b] := by
  apply List.ext_getElem
  · simp
  · intro k h1 h2
    have hk : k < u.rxLen + 1 := by simpa using h1
    have hcap : u.rxLen < 16 := h
    rw [fifoContents_get, List.getElem_append]
    show (u.rxBuf.set (rxIndex u u.rxLen).val b)[(rxIndex u k).val] = _
    by_cases hlt : k < u.rxLen
    · have hne : (rxIndex u u.rxLen).val ≠ (rxIndex u k).val := by
        simp only [rxIndex_val]; omega
      rw [Vector.getElem_set_ne _ _ hne]
      simp [hlt, fifoContents_get]
    · have hke : k = u.rxLen := by omega
      subst hke
      simp

/-- What a run of pushes leaves alone. -/
theorem fifoPushAll_frame (bytes : List Byte) : ∀ u : UartState,
    (fifoPushAll u bytes).stat = u.stat ∧ (fifoPushAll u bytes).ctrl = u.ctrl ∧
    (fifoPushAll u bytes).plain = u.plain ∧ (fifoPushAll u bytes).irq = u.irq ∧
    (fifoPushAll u bytes).rxHead = u.rxHead ∧ (fifoPushAll u bytes).rxLen = u.rxLen + bytes.length := by
  induction bytes with
  | nil => intro u; simp [fifoPushAll]
  | cons b bs ih =>
    intro u
    obtain ⟨h1, h2, h3, h4, h5, h6⟩ := ih (fifoPush u b)
    refine ⟨h1, h2, h3, h4, h5, ?_⟩
    show (fifoPushAll (fifoPush u b) bs).rxLen = _
    rw [h6]; simp; omega

@[simp] theorem fifoPushAll_stat (u : UartState) (bytes : List Byte) : (fifoPushAll u bytes).stat = u.stat :=
  (fifoPushAll_frame bytes u).1

@[simp] theorem fifoPushAll_ctrl (u : UartState) (bytes : List Byte) : (fifoPushAll u bytes).ctrl = u.ctrl :=
  (fifoPushAll_frame bytes u).2.1

@[simp] theorem fifoPushAll_plain (u : UartState) (bytes : List Byte) : (fifoPushAll u bytes).plain = u.plain :=
  (fifoPushAll_frame bytes u).2.2.1

@[simp] theorem fifoPushAll_irq (u : UartState) (bytes : List Byte) : (fifoPushAll u bytes).irq = u.irq :=
  (fifoPushAll_frame bytes u).2.2.2.1

@[simp] theorem fifoPushAll_head (u : UartState) (bytes : List Byte) : (fifoPushAll u bytes).rxHead = u.rxHead :=
  (fifoPushAll_frame bytes u).2.2.2.2.1

@[simp] theorem fifoPushAll_len (u : UartState) (bytes : List Byte) :
    (fifoPushAll u bytes).rxLen = u.rxLen + bytes.length :=
  (fifoPushAll_frame bytes u).2.2.2.2.2

/-- Pushes that fit append in list order (rules R201, R205). -/
theorem fifoPushAll_contents (bytes : List Byte) : ∀ u : UartState, u.rxLen + bytes.length ≤ rxCap →
    fifoContents (fifoPushAll u bytes) = fifoContents u ++ bytes := by
  induction bytes with
  | nil => intro u _; simp [fifoPushAll]
  | cons b bs ih =>
    intro u h
    have hlen : u.rxLen + (bs.length + 1) ≤ rxCap := by simpa using h
    have := ih (fifoPush u b) (by simp; omega)
    simpa [fifoPushAll, fifoPush_contents u b (by omega)] using this

/-- The contents do not depend on what is not the FIFO's. -/
@[simp] theorem fifoContents_with_stat (u : UartState) (v : Word) :
    fifoContents { u with stat := v } = fifoContents u := rfl

@[simp] theorem fifoContents_with_irq (u : UartState) (b : Bool) :
    fifoContents { u with irq := b } = fifoContents u := rfl

/-- A pop takes the oldest byte and leaves the others in order (rule R205). -/
theorem fifoContents_eq_cons (u : UartState) (h : 0 < u.rxLen) :
    fifoContents u = fifoHead u :: fifoContents (fifoDrop u) := by
  apply List.ext_getElem
  · simp [fifoDrop]; omega
  · intro k h1 h2
    rw [fifoContents_get]
    cases k with
    | zero =>
      have : rxIndex u 0 = u.rxHead := by
        apply Fin.ext
        have := u.rxHead.isLt
        simp only [rxIndex_val, rxCap] at *
        omega
      simp [this, fifoHead]
    | succ j =>
      have hidx : rxIndex (fifoDrop u) j = rxIndex u (j + 1) := by
        apply Fin.ext; simp only [rxIndex_val, fifoDrop]; omega
      simp [fifoContents_get, hidx]
      rfl

/-- Recomputing the line leaves the receive FIFO alone. -/
@[simp] theorem uartIrqRecompute_fifo (s : State) : fifoContents (uartIrqRecompute s).uart = fifoContents s.uart := by
  rw [uartIrqRecompute_uart]; rfl

end Sys2Proof.Machine
end

