-- ==== Sys2Proof/Laws/Decode.lean ====
section
/-! SUPPORT. What a well-formed parameter set gives (rule R7), and the decoder against the register map: every
target's offset decodes to the target (rules R37, R39, R83, R84). -/

namespace Sys2Proof

/-! ### The checks of rule R7, one by one -/

theorem pairwiseApart_iff (l : List (Nat × Nat)) : pairwiseApart l = true ↔ l.Pairwise fun a b => apart a b = true := by
  induction l with
  | nil => simp [pairwiseApart]
  | cons x xs ih => simp [pairwiseApart, ih, List.all_eq_true]

theorem distinct_iff (l : List Nat) : distinct l = true ↔ l.Nodup := by
  induction l with
  | nil => simp [distinct]
  | cons x xs ih => simp [distinct, ih]

/-- Two of the byte ranges of rule R7 do not overlap. -/
theorem Params.ranges_apart {P : Params} (h : P.wf = true) (i j : Nat) (hij : i < j) (hj : j < 11) :
    let a := P.pinRanges[i]'(by simp [Params.pinRanges]; omega)
    let b := P.pinRanges[j]'(by simp [Params.pinRanges]; omega)
    a.1 + a.2 ≤ b.1 ∨ b.1 + b.2 ≤ a.1 := by
  have hp : pairwiseApart P.pinRanges = true := by
    simp only [Params.wf, Bool.and_eq_true] at h; tauto
  have := List.pairwise_iff_getElem.mp ((pairwiseApart_iff _).mp hp) i j
    (by simp [Params.pinRanges]; omega) (by simp [Params.pinRanges]; omega) hij
  simpa [apart] using this

/-- Every offset of a register or of a per-pin block lies in the window (rule R7). -/
theorem PinTarget.off_lt {P : Params} (h : P.wf = true) (t : PinTarget) : t.off P < P.pinWindow := by
  have ho : P.offsetsInWindow = true := by
    simp only [Params.wf, Bool.and_eq_true] at h; tauto
  simp [Params.offsetsInWindow, pinCfgStride, nPins] at ho
  cases t with
  | cfg p lane => have := p.isLt; have := lane.isLt; simp only [PinTarget.off, pinCfgStride, nPins] at *; omega
  | out p => have := p.isLt; simp only [PinTarget.off, nPins] at *; omega
  | inp p => have := p.isLt; simp only [PinTarget.off, nPins] at *; omega
  | _ => simp only [PinTarget.off]; omega

theorem Params.pinWindow_le {P : Params} (h : P.wf = true) : P.pinWindow ≤ 2 ^ 32 := by
  simp only [Params.wf, Bool.and_eq_true, decide_eq_true_eq] at h; tauto

theorem Params.window_le {P : Params} (h : P.wf = true) (dev : Dev) : P.window dev ≤ 2 ^ 32 := by
  simp only [Params.wf, Bool.and_eq_true, decide_eq_true_eq] at h
  cases dev <;> simp only [Params.window] <;> tauto

/-- A bus access reaches a controller only with an offset in its window, the address less the base (rule R61). -/
theorem Params.busOffset_some {P : Params} (h : P.wf = true) {dev : Dev} {a : Nat} {off : Word}
    (hb : P.busOffset dev a = some off) : off.toNat < P.window dev ∧ a = P.base dev + off.toNat := by
  have hw := Params.window_le h dev
  unfold Params.busOffset at hb
  split at hb
  · cases hb; simp only [BitVec.toNat_ofNat]; omega
  · cases hb

/-- The STAT positions are eight different positions of a 32-bit register. -/
theorem Params.stat_bits {P : Params} (h : P.wf = true) : P.statBits.Nodup ∧ ∀ b ∈ P.statBits, b < 32 := by
  simp only [Params.wf, Bool.and_eq_true, distinct_iff, List.all_eq_true, decide_eq_true_eq] at h; tauto

/-- The CTRL positions are four different positions of a 32-bit register. -/
theorem Params.ctrl_bits {P : Params} (h : P.wf = true) : P.ctrlBits.Nodup ∧ ∀ b ∈ P.ctrlBits, b < 32 := by
  simp only [Params.wf, Bool.and_eq_true, distinct_iff, List.all_eq_true, decide_eq_true_eq] at h; tauto

/-- The three STAT flags the block computes have different positions of the register. -/
theorem Params.stat_flags {P : Params} (h : P.wf = true) :
    P.statTdre ≠ P.statTc ∧ P.statTdre ≠ P.statRdrf ∧ P.statTc ≠ P.statRdrf ∧
      P.statTdre < 32 ∧ P.statTc < 32 ∧ P.statRdrf < 32 := by
  obtain ⟨hn, hlt⟩ := Params.stat_bits h
  have lt : ∀ {b}, b ∈ P.statBits → b < 32 := fun {b} => hlt b
  have h1 : P.statTdre < 32 := lt (by simp [Params.statBits])
  have h2 : P.statTc < 32 := lt (by simp [Params.statBits])
  have h3 : P.statRdrf < 32 := lt (by simp [Params.statBits])
  simp only [Params.statBits, List.nodup_cons, List.mem_cons, not_or] at hn
  tauto

/-- The clearable STAT flags are none of the three the block computes (rule R180). -/
theorem Params.w1c_ne {P : Params} (h : P.wf = true) (i : Nat)
    (hi : i = P.statTdre ∨ i = P.statTc ∨ i = P.statRdrf) :
    i ≠ P.statIdle ∧ i ≠ P.statOr ∧ i ≠ P.statNf ∧ i ≠ P.statFe ∧ i ≠ P.statPf := by
  have hn := (Params.stat_bits h).1
  simp only [Params.statBits, List.nodup_cons, List.mem_cons, not_or] at hn
  rcases hi with rfl | rfl | rfl <;> tauto

/-- What a STAT read computes, bit by bit (rule R167). -/
theorem Machine.bit_statRead {P : Params} (h : P.wf = true) (u : Machine.UartState) (i : Nat) :
    Machine.bit (Machine.statRead P u) i =
      if i = P.statRdrf then decide (0 < u.rxLen)
      else if i = P.statTdre ∨ i = P.statTc then true else Machine.bit u.stat i := by
  obtain ⟨h1, h2, h3, h4, h5, h6⟩ := Params.stat_flags h
  have hlt : ∀ v : Word, Machine.bit v i = true → i < 32 := fun v => Machine.bit_lt
  have hs := hlt u.stat
  simp only [Machine.statRead]
  by_cases e1 : i = P.statRdrf
  · subst e1
    by_cases hl : 0 < u.rxLen <;> simp [hl, Machine.bit_mask, h6]
  · by_cases e2 : i = P.statTdre ∨ i = P.statTc
    · have hm : Machine.bit (u.stat ||| Machine.mask P.statTdre ||| Machine.mask P.statTc) i = true := by
        rcases e2 with rfl | rfl <;> simp [Machine.bit_mask, h4, h5]
      have hne : ¬ P.statRdrf = i := fun h => e1 h.symm
      rw [if_neg e1, if_pos e2]
      by_cases hl : 0 < u.rxLen
      · rw [if_pos hl, Machine.bit_or, hm, Bool.true_or]
      · rw [if_neg hl, Machine.bit_and, hm, Machine.bit_not, Machine.bit_mask]
        simp [hne, hlt _ hm]
    · have e3 : ¬ P.statTdre = i := fun h => e2 (.inl h.symm)
      have e4 : ¬ P.statTc = i := fun h => e2 (.inr h.symm)
      have e5 : ¬ P.statRdrf = i := fun h => e1 h.symm
      by_cases hl : 0 < u.rxLen
      · simp [hl, Machine.bit_mask, e1, e2, e3, e4, e5]
      · simp [hl, Machine.bit_mask, e1, e2, e3, e4, e5]
        exact hs

/-! ### The pin controller -/

@[simp] theorem Width.ofBytes_bytes (w : Width) : Width.ofBytes w.bytes = some w := by cases w <;> rfl

theorem Width.bytes_of_ofBytes {n : Nat} {w : Width} (h : Width.ofBytes n = some w) : w.bytes = n := by
  unfold Width.ofBytes at h
  split at h
  · cases h; simp_all [Width.bytes]
  · split at h
    · cases h; simp_all [Width.bytes]
    · split at h
      · cases h; simp_all [Width.bytes]
      · cases h

theorem pinOfSlot_val (p : Fin nPins) : pinOfSlot p.val = p := by
  apply Fin.ext; simp [pinOfSlot, Fin.ofNat, Nat.mod_eq_of_lt p.isLt]

/-- The number, in the list of rule R7, of the byte range a target's offset lies in. -/
def PinTarget.rangeIndex : PinTarget → Fin 11
  | .id0            => 0
  | .id1            => 1
  | .edgeStatus     => 2
  | .irqEnable      => 3
  | .edgeTypeSelect => 4
  | .risingEnable   => 5
  | .fallingEnable  => 6
  | .filterEnable   => 7
  | .cfg _ _        => 8
  | .out _          => 9
  | .inp _          => 10

/-- A target's offset lies in its byte range. -/
theorem PinTarget.off_mem_range (P : Params) (t : PinTarget) :
    (P.pinRanges[t.rangeIndex]).1 ≤ t.off P ∧
    t.off P < (P.pinRanges[t.rangeIndex]).1 + (P.pinRanges[t.rangeIndex]).2 := by
  cases t with
  | cfg p lane =>
    have := p.isLt; have := lane.isLt
    simp [PinTarget.off, PinTarget.rangeIndex, Params.pinRanges, pinCfgStride, nPins] at *; omega
  | out p => have := p.isLt; simp [PinTarget.off, PinTarget.rangeIndex, Params.pinRanges]
  | inp p => have := p.isLt; simp [PinTarget.off, PinTarget.rangeIndex, Params.pinRanges]
  | _ => simp [PinTarget.off, PinTarget.rangeIndex, Params.pinRanges]

/-- Two targets with one offset have one byte range, since no two ranges overlap (rule R7). -/
theorem PinTarget.rangeIndex_eq_of_off {P : Params} (h : P.wf = true) {t u : PinTarget} (ho : t.off P = u.off P) :
    t.rangeIndex = u.rangeIndex := by
  have ht := PinTarget.off_mem_range P t
  have hu := PinTarget.off_mem_range P u
  simp only [Fin.getElem_fin] at ht hu
  rcases Nat.lt_trichotomy t.rangeIndex u.rangeIndex with hlt | heq | hlt
  · have := Params.ranges_apart h _ _ hlt u.rangeIndex.isLt; omega
  · exact Fin.ext heq
  · have := Params.ranges_apart h _ _ hlt t.rangeIndex.isLt; omega

/-- No two targets have one offset (rules R7, R37). -/
theorem PinTarget.off_injective {P : Params} (h : P.wf = true) {t u : PinTarget} (ho : t.off P = u.off P) : t = u := by
  have hr := PinTarget.rangeIndex_eq_of_off h ho
  cases t <;> cases u <;> first | rfl | (simp [PinTarget.rangeIndex] at hr; done) | skip
  case cfg.cfg p l q m =>
    have := l.isLt; have := m.isLt
    simp only [PinTarget.off, pinCfgStride] at ho
    rw [Fin.ext (show p.val = q.val by omega), Fin.ext (show l.val = m.val by omega)]
  case out.out p q => simp only [PinTarget.off] at ho; rw [Fin.ext (show p.val = q.val by omega)]
  case inp.inp p q => simp only [PinTarget.off] at ho; rw [Fin.ext (show p.val = q.val by omega)]

/-- A target decodes only from its own offset (rules R37, R83). -/
theorem decodePin_some {P : Params} {off : Nat} {t : PinTarget} (h : decodePin P off = some t) : t.off P = off := by
  unfold decodePin at h
  repeat' (first | (split at h) | (cases h))
  all_goals simp only [PinTarget.off] at *
  all_goals first
    | (symm; assumption)
    | skip
  · rename_i hr
    simp only [pinOfSlot, pinCfgStride, nPins, Fin.val_ofNat] at *
    omega
  · rename_i hr
    simp only [pinOfSlot, nPins, Fin.val_ofNat] at *
    omega
  · rename_i hr
    simp only [pinOfSlot, nPins, Fin.val_ofNat] at *
    omega

/-- An offset that decodes as `NONE` is no target's (rules R37, R83). -/
theorem decodePin_none {P : Params} {off : Nat} (h : decodePin P off = none) (t : PinTarget) : t.off P ≠ off := by
  unfold decodePin at h
  repeat' (first | (split at h) | (cases h))
  cases t with
  | cfg p lane =>
    have := p.isLt; have := lane.isLt
    simp only [PinTarget.off, pinCfgStride, nPins] at *; omega
  | out p => have := p.isLt; simp only [PinTarget.off, nPins] at *; omega
  | inp p => have := p.isLt; simp only [PinTarget.off, nPins] at *; omega
  | _ => simp only [PinTarget.off]; omega

/-- Every target's offset decodes to the target (rules R37, R83). -/
theorem decodePin_off {P : Params} (h : P.wf = true) (t : PinTarget) : decodePin P (t.off P) = some t := by
  cases hd : decodePin P (t.off P) with
  | none => exact absurd rfl (decodePin_none hd t)
  | some u => rw [PinTarget.off_injective h (decodePin_some hd)]

/-- An offset at or past the window's size decodes as `NONE` (rules R7, R83). -/
theorem decodePin_past_window {P : Params} (h : P.wf = true) {off : Nat} (ho : P.pinWindow ≤ off) :
    decodePin P off = none := by
  cases hd : decodePin P off with
  | none => rfl
  | some t =>
    have h1 := PinTarget.off_lt h t
    have h2 := decodePin_some hd
    omega

/-- A target's offset, as the 32-bit offset of a request. -/
theorem PinTarget.off_toNat {P : Params} (h : P.wf = true) (t : PinTarget) :
    (BitVec.ofNat 32 (t.off P)).toNat = t.off P := by
  have := PinTarget.off_lt h t
  have := Params.pinWindow_le h
  simp only [BitVec.toNat_ofNat]
  omega

/-- The common entry lets an aligned access at a target through (rules R100, R101). -/
theorem decodePinAccess_target {P : Params} (h : P.wf = true) (t : PinTarget) (w : Width) (ha : t.wf P w = true)
    (dir : Dir) (mk : Width → Option PinTarget → Instr) :
    decodePinAccess P dir (BitVec.ofNat 32 (t.off P)) w.bytes mk = .instr (mk w (some t)) := by
  simp [decodePinAccess, PinTarget.off_toNat h, decodePin_off h, show aligned (t.off P) w = true from ha]

/-- The common entry lets an invalid access through to the invalid operation (rules R86, R122, R123). -/
theorem decodePinAccess_invalid {P : Params} (off : Word) (w : Width) (ha : wfPinInvalid P off w = true)
    (dir : Dir) (mk : Width → Option PinTarget → Instr) :
    decodePinAccess P dir off w.bytes mk = .instr (mk w none) := by
  simp only [wfPinInvalid, Bool.and_eq_true, Option.isNone_iff_eq_none] at ha
  simp [decodePinAccess, ha.1, ha.2]

/-! ### The serial controller -/

theorem Slot.off_bounds (t : Slot) : t.off < 48 ∧ t.off % 4 = 0 := by cases t <;> decide

/-- Every slot's offset decodes to the slot (rules R39, R84). -/
theorem decodeUart_off (t : Slot) : decodeUart t.off = some t := by cases t <;> rfl

/-- The common entry lets an access at a slot through (rules R160, R161). -/
theorem decodeUartAccess_slot (t : Slot) (dir : Dir) (mk : Option Slot → Instr) :
    decodeUartAccess dir (BitVec.ofNat 32 t.off) 4 mk = .instr (mk (some t)) := by
  have hb := Slot.off_bounds t
  have ho : (BitVec.ofNat 32 t.off).toNat = t.off := by simp only [BitVec.toNat_ofNat]; omega
  simp [decodeUartAccess, ho, decodeUart_off, hb.2]

/-- The common entry lets an invalid access through to the invalid operation (rules R86, R174, R187). -/
theorem decodeUartAccess_invalid (off : Word) (ha : wfUartInvalid off = true)
    (dir : Dir) (mk : Option Slot → Instr) :
    decodeUartAccess dir off 4 mk = .instr (mk none) := by
  simp only [wfUartInvalid, Bool.and_eq_true, decide_eq_true_eq, beq_iff_eq, uartNSlots] at ha
  have hd : decodeUart off.toNat = none := by unfold decodeUart; rw [if_neg (by simp only [uartNSlots]; omega)]
  simp [decodeUartAccess, hd, ha.2]

/-! ### From a decoded request back to its fields -/

/-- A slot decodes, from an aligned offset, only from its own (rules R39, R84). -/
theorem decodeUart_some {off : Nat} {t : Slot} (h : decodeUart off = some t) (ha : off % 4 = 0) : t.off = off := by
  unfold decodeUart at h
  split at h
  · rename_i hlt
    simp only [uartNSlots] at hlt
    have : off / 4 < 12 := by omega
    generalize hn : off / 4 = n at h this
    interval_cases n <;> simp [Slot.ofIndex] at h <;> subst h <;> simp [Slot.off] <;> omega
  · cases h

/-- Past the register file nothing decodes (rule R84). -/
theorem decodeUart_none {off : Nat} (h : decodeUart off = none) : 48 ≤ off := by
  unfold decodeUart at h
  split at h
  · rename_i hlt
    simp only [uartNSlots] at hlt
    have : off / 4 < 12 := by omega
    generalize hn : off / 4 = n at h this
    interval_cases n <;> simp [Slot.ofIndex] at h
  · simp only [uartNSlots] at *; omega

/-- What a decoded pin access has passed (rules R100, R101). -/
theorem decodePinAccess_instr {P : Params} {dir off w mk i} (h : decodePinAccess P dir off w mk = .instr i) :
    ∃ wd : Width, wd.bytes = w ∧ aligned off.toNat wd = true ∧ i = mk wd (decodePin P off.toNat) := by
  unfold decodePinAccess at h
  split at h
  · cases h
  · rename_i wd h2
    split at h
    · rename_i h3; cases h; exact ⟨wd, Width.bytes_of_ofBytes h2, h3, rfl⟩
    · cases h

/-- What a decoded serial access has passed (rules R160, R161). -/
theorem decodeUartAccess_instr {dir off w mk i} (h : decodeUartAccess dir off w mk = .instr i) :
    off.toNat % 4 = 0 ∧ w = 4 ∧ i = mk (decodeUart off.toNat) := by
  unfold decodeUartAccess at h
  split at h
  · cases h
  · split at h
    · cases h
    · cases h; rename_i h2 h3; exact ⟨by simpa using h2, by simpa using h3, rfl⟩

end Sys2Proof
end

