-- ==== Sys2Proof/Laws/Step.lean ====
section
/-! SUPPORT. What a step can do, said once: it is idle, it runs one operation, or it logs an access of a wrong width. -/

namespace Sys2Proof.Machine

/-- Every operation completes: the block never fails a decoded request (rule R220). -/
theorem exec_completes (i : Instr) (s : State) : ∃ t, exec i s = .next t := by
  cases i <;> simp only [exec]
  case pinWrFilterEnable w d => unfold execPinWrFilterEnable; split <;> exact ⟨_, rfl⟩
  case pinWrOut p w d => unfold execPinWrOut; dsimp only; split <;> exact ⟨_, rfl⟩
  case pinEvSetInput p l =>
    unfold execPinEvSetInput; dsimp only; split
    · exact ⟨_, rfl⟩
    · split <;> exact ⟨_, rfl⟩
  case uartRdData =>
    unfold execUartRdData; dsimp only; split
    · exact ⟨_, rfl⟩
    · split <;> exact ⟨_, rfl⟩
  case uartWrData v => unfold execUartWrData; dsimp only; split <;> exact ⟨_, rfl⟩
  case uartEvReceive b => unfold execUartEvReceive; dsimp only; split <;> exact ⟨_, rfl⟩
  all_goals exact ⟨_, rfl⟩

/-- What a step that answers a next state did. -/
theorem step_cases {s t : State} (h : step s = .next t) :
    (s.pending = [] ∧ t = s) ∨
    (∃ r rest, s.pending = r :: rest ∧ s.params.wf = true ∧
      ((∃ i, decode s.params r = .instr i ∧ exec i { s with pending := rest } = .next t) ∨
       (∃ dev dir off w, decode s.params r = .invalidWidth dev dir off w ∧
          t = rejectAccess dev .invalidWidth dir off w { s with pending := rest }))) := by
  unfold step State.takeRequest at h
  cases hp : s.pending with
  | nil => simp [hp] at h; exact .inl ⟨rfl, h.symm⟩
  | cons r rest =>
    simp only [hp] at h
    right
    refine ⟨r, rest, rfl, ?_⟩
    unfold perform at h
    by_cases hw : s.params.wf = true
    · rw [if_pos (by exact hw)] at h
      refine ⟨hw, ?_⟩
      unfold performDecoded at h
      cases hd : decode s.params r with
      | instr i => simp only [hd] at h; exact .inl ⟨i, rfl, h⟩
      | invalidWidth dev dir off w =>
        simp only [hd] at h
        cases h
        exact .inr ⟨dev, dir, off, w, rfl, rfl⟩
      | reject why => simp only [hd] at h; cases why <;> cases h
    · rw [if_neg (by exact hw)] at h; cases h

/-- A step on a pending request whose parameters are well formed is what the decoded request does. -/
theorem step_eq {s : State} {r : Request} {rest : List Request} (hp : s.pending = r :: rest)
    (hw : s.params.wf = true) : step s = performDecoded (decode s.params r) { s with pending := rest } := by
  unfold step State.takeRequest
  rw [hp]
  dsimp only
  unfold perform
  rw [if_pos (by exact hw)]

/-- A run of `k + 1` steps is one step and a run of `k`. -/
theorem run_succ {k : Nat} {s t : State} (h : step s = .next t) :
    Sys2Proof.core.run (k + 1) s = Sys2Proof.core.run k t := by
  have h' : Sys2Proof.core.step s = .next t := h
  simp only [Host.Core.run, h']

end Sys2Proof.Machine
end

