-- ==== Sys2Proof/Laws/Effects.lean ====
section
/-! SUPPORT. What no operation changes, whatever it is: the parameters, the requests behind it, the controller it is not
for; and how much it can log and emit. -/

namespace Sys2Proof.Machine

/-- The controller an operation is for (rule R85). -/
def instrDev (i : Instr) : Dev := requestDev (encode defaultParams i)

/-- An operation is for the controller its request names. -/
theorem instrDev_decode {P r i} (h : decode P r = .instr i) : instrDev i = requestDev r := by
  cases r with
  | mmioR dev off w =>
    cases dev
    · obtain ⟨wd, -, -, rfl⟩ := decodePinAccess_instr h
      generalize decodePin P off.toNat = o
      cases o with
      | none => rfl
      | some t => cases t <;> rfl
    · obtain ⟨-, -, rfl⟩ := decodeUartAccess_instr h
      generalize decodeUart off.toNat = o
      cases o with
      | none => rfl
      | some t => cases t <;> rfl
  | mmioW dev off w v =>
    cases dev
    · obtain ⟨wd, -, -, rfl⟩ := decodePinAccess_instr h
      generalize decodePin P off.toNat = o
      cases o with
      | none => rfl
      | some t => cases t <;> rfl
    · obtain ⟨-, -, rfl⟩ := decodeUartAccess_instr h
      generalize decodeUart off.toNat = o
      cases o with
      | none => rfl
      | some t => cases t <;> rfl
  | reset dev => cases dev <;> cases h <;> rfl
  | pinEv p l =>
    simp only [decode, decodePinEvent] at h
    split at h
    · cases h
    · split at h <;> cases h <;> rfl
  | rxEv b => cases h; rfl
  | rxQ => cases h; rfl

/-- No operation changes a parameter (rule R6). -/
theorem exec_params {i : Instr} {s t : State} (h : exec i s = .next t) : t.params = s.params := by
  cases i
  all_goals simp only [exec] at h
  case pinWrFilterEnable w d => simp only [execPinWrFilterEnable] at h; split at h <;> cases h <;> rfl
  case pinWrOut => simp only [execPinWrOut] at h; split at h <;> cases h <;> rfl
  case pinEvSetInput =>
    simp only [execPinEvSetInput] at h; split at h
    · cases h; rfl
    · split at h <;> cases h <;> rfl
  case uartWrData => simp only [execUartWrData] at h; split at h <;> cases h <;> rfl
  case pinWrEdgeStatus => cases h; simp
  case pinReset => cases h; split <;> simp
  case uartReset => cases h; split <;> simp
  case uartWrCtrl => cases h; simp
  case uartRdData =>
    simp only [execUartRdData] at h
    split at h
    · cases h; rfl
    · split at h
      · cases h
        split <;> simp [uartReadReply]
      · cases h; rfl
  case uartEvReceive =>
    simp only [execUartEvReceive] at h
    split at h <;> cases h
    · rfl
    · split <;> simp
  all_goals (cases h; rfl)

/-- No operation changes the requests behind it. -/
theorem exec_pending {i s t} (h : exec i s = .next t) : t.pending = s.pending := by
  cases i
  all_goals simp only [exec] at h
  case pinWrFilterEnable w d => simp only [execPinWrFilterEnable] at h; split at h <;> cases h <;> rfl
  case pinWrOut => simp only [execPinWrOut] at h; split at h <;> cases h <;> rfl
  case pinEvSetInput =>
    simp only [execPinEvSetInput] at h; split at h
    · cases h; rfl
    · split at h <;> cases h <;> rfl
  case uartWrData => simp only [execUartWrData] at h; split at h <;> cases h <;> rfl
  case pinWrEdgeStatus => cases h; simp
  case pinReset => cases h; split <;> simp
  case uartReset => cases h; split <;> simp
  case uartWrCtrl => cases h; simp
  case uartRdData =>
    simp only [execUartRdData] at h
    split at h
    · cases h; rfl
    · split at h
      · cases h
        split <;> simp [uartReadReply]
      · cases h; rfl
  case uartEvReceive =>
    simp only [execUartEvReceive] at h
    split at h <;> cases h
    · rfl
    · split <;> simp
  all_goals (cases h; rfl)

/-- An operation leaves the other controller alone (rules R71, R238). -/
theorem exec_other_controller {i : Instr} {s t : State} (h : exec i s = .next t) :
    (instrDev i = .pin → t.uart = s.uart) ∧ (instrDev i = .uart → t.pin = s.pin) := by
  cases i
  all_goals refine ⟨fun hd => ?_, fun hd => ?_⟩
  all_goals first | (cases hd; done) | skip
  all_goals clear hd
  all_goals simp only [exec] at h
  case pinWrFilterEnable w d => simp only [execPinWrFilterEnable] at h; split at h <;> cases h <;> rfl
  case pinWrOut => simp only [execPinWrOut] at h; split at h <;> cases h <;> rfl
  case pinEvSetInput =>
    simp only [execPinEvSetInput] at h; split at h
    · cases h; rfl
    · split at h <;> cases h <;> rfl
  case pinWrEdgeStatus => cases h; simp
  case pinReset => cases h; split <;> simp
  case uartRdData =>
      simp only [execUartRdData] at h
      split at h
      · cases h; rfl
      · split at h
        · cases h
          split <;> simp [uartReadReply]
        · cases h; rfl
  case uartEvReceive =>
      simp only [execUartEvReceive] at h
      split at h <;> cases h
      · rfl
      · split <;> simp
  case uartReset => cases h; split <;> rfl
  case uartWrCtrl => cases h; simp
  case uartWrData => simp only [execUartWrData] at h; split at h <;> cases h <;> rfl
  all_goals
    cases h
    rfl

/-- An operation either logs nothing and emits at most one event, or logs one record, replies 0 or nothing, and changes
neither controller (rules R220, R222); the record's code is 2 for a pin event and 4 for a write to an input-data slot (rule
R221). -/
theorem exec_output {i : Instr} {s t : State} (h : exec i s = .next t) :
    (t.log = s.log ∧ (t.trace = s.trace ∨ ∃ e, t.trace = s.trace ++ [e])) ∨
    (∃ r, t.log = s.log ++ [r] ∧ t.trace = s.trace ∧ t.pin = s.pin ∧ t.uart = s.uart ∧ (t.reply = .word 0 ∨ t.reply = .none) ∧
      (r.kind.code = 2 ↔ ∃ p, r.info = .pinEvent p) ∧ (r.kind.code = 4 ↔ ∃ p w data, i = .pinWrIn p w data)) := by
  cases i
  all_goals simp only [exec] at h
  case pinWrFilterEnable w d =>
    simp only [execPinWrFilterEnable] at h; split at h <;> cases h
    · exact .inl ⟨rfl, .inl rfl⟩
    · exact .inr ⟨_, rfl, rfl, rfl, rfl, .inr rfl, by simp [DiagKind.code], by simp [DiagKind.code]⟩
  case pinWrOut =>
    simp only [execPinWrOut] at h; split at h <;> cases h
    · exact .inl ⟨rfl, .inr ⟨_, rfl⟩⟩
    · exact .inl ⟨rfl, .inl rfl⟩
  case pinEvSetInput =>
    simp only [execPinEvSetInput] at h; split at h
    · cases h; exact .inl ⟨rfl, .inl rfl⟩
    · split at h <;> cases h
      · exact .inl ⟨rfl, .inr ⟨_, rfl⟩⟩
      · exact .inl ⟨rfl, .inl rfl⟩
  case pinWrEdgeStatus =>
    cases h
    rw [pinIrqAfterClear_eq]
    split
    · exact .inl ⟨rfl, .inr ⟨_, rfl⟩⟩
    · exact .inl ⟨rfl, .inl rfl⟩
  case pinReset =>
    cases h; split
    · exact .inl ⟨rfl, .inr ⟨_, rfl⟩⟩
    · exact .inl ⟨rfl, .inl rfl⟩
  case uartRdData =>
      simp only [execUartRdData] at h
      split at h
      · cases h; exact .inl ⟨rfl, .inl rfl⟩
      · split at h
        · cases h
          split
          · rw [uartIrqRecompute_eq]
            refine .inl ⟨rfl, ?_⟩
            simp only [uartReadReply, answer_trace]
            split
            · exact .inl rfl
            · exact .inr ⟨_, rfl⟩
          · exact .inl ⟨rfl, .inl rfl⟩
        · cases h; exact .inl ⟨rfl, .inl rfl⟩
  case uartEvReceive =>
      simp only [execUartEvReceive] at h
      split at h <;> cases h
      · exact .inl ⟨rfl, .inl rfl⟩
      · split
        · rw [uartIrqRecompute_eq]
          refine .inl ⟨rfl, ?_⟩
          simp only [answer_trace]
          split
          · exact .inl rfl
          · exact .inr ⟨_, rfl⟩
        · exact .inl ⟨rfl, .inl rfl⟩
  case uartReset =>
    cases h; split
    · exact .inl ⟨rfl, .inr ⟨_, rfl⟩⟩
    · exact .inl ⟨rfl, .inl rfl⟩
  case uartWrCtrl =>
    cases h
    rw [uartIrqRecompute_eq]
    refine .inl ⟨rfl, ?_⟩
    simp only [answer_trace]
    split
    · exact .inl rfl
    · exact .inr ⟨_, rfl⟩
  case uartWrData =>
    simp only [execUartWrData] at h; split at h <;> cases h
    · exact .inl ⟨rfl, .inr ⟨_, rfl⟩⟩
    · exact .inl ⟨rfl, .inl rfl⟩
  all_goals
    cases h
    first
      | exact .inl ⟨rfl, .inl rfl⟩
      | exact .inr ⟨_, rfl, rfl, rfl, rfl, .inl rfl, by simp [DiagKind.code], by simp [DiagKind.code]⟩
      | exact .inr ⟨_, rfl, rfl, rfl, rfl, .inr rfl, by simp [DiagKind.code], by simp [DiagKind.code]⟩

end Sys2Proof.Machine
end

