-- ==== Sys2Proof/Laws/PerInstr.lean ====
section
/-! SUPPORT. Per operation: decoding the encoded operation gives it back, under every well-formed parameter set. -/

namespace Sys2Proof.Laws.RoundTrip

/-- Under every well-formed parameter set under which the operation is well formed, decoding its request gives it back. -/
def Statement (i : Instr) : Prop :=
  ∀ P : Params, P.wf = true → i.wf P = true → decode P (encode P i) = .instr i

theorem pinRdId0 (w : Width) : Statement (.pinRdId0 w) := 
  fun _ hP hi => decodePinAccess_target hP .id0 w hi .read _

theorem pinRdId1 (w : Width) : Statement (.pinRdId1 w) := 
  fun _ hP hi => decodePinAccess_target hP .id1 w hi .read _

theorem pinRdEdgeStatus (w : Width) : Statement (.pinRdEdgeStatus w) := 
  fun _ hP hi => decodePinAccess_target hP .edgeStatus w hi .read _

theorem pinRdIrqEnable (w : Width) : Statement (.pinRdIrqEnable w) := 
  fun _ hP hi => decodePinAccess_target hP .irqEnable w hi .read _

theorem pinRdEdgeTypeSelect (w : Width) : Statement (.pinRdEdgeTypeSelect w) := 
  fun _ hP hi => decodePinAccess_target hP .edgeTypeSelect w hi .read _

theorem pinRdRisingEnable (w : Width) : Statement (.pinRdRisingEnable w) := 
  fun _ hP hi => decodePinAccess_target hP .risingEnable w hi .read _

theorem pinRdFallingEnable (w : Width) : Statement (.pinRdFallingEnable w) := 
  fun _ hP hi => decodePinAccess_target hP .fallingEnable w hi .read _

theorem pinRdFilterEnable (w : Width) : Statement (.pinRdFilterEnable w) := 
  fun _ hP hi => decodePinAccess_target hP .filterEnable w hi .read _

theorem pinRdCfg (p : Fin nPins) (lane : Fin 4) (w : Width) : Statement (.pinRdCfg p lane w) := 
  fun _ hP hi => decodePinAccess_target hP (.cfg p lane) w hi .read _

theorem pinRdOut (p : Fin nPins) (w : Width) : Statement (.pinRdOut p w) := 
  fun _ hP hi => decodePinAccess_target hP (.out p) w hi .read _

theorem pinRdIn (p : Fin nPins) (w : Width) : Statement (.pinRdIn p w) := 
  fun _ hP hi => decodePinAccess_target hP (.inp p) w hi .read _

theorem pinRdInvalid (off : Word) (w : Width) : Statement (.pinRdInvalid off w) := 
  fun _ _ hi => decodePinAccess_invalid off w hi .read _

theorem pinWrId0 (w : Width) (data : Word) : Statement (.pinWrId0 w data) := 
  fun _ hP hi => decodePinAccess_target hP .id0 w hi .write _

theorem pinWrId1 (w : Width) (data : Word) : Statement (.pinWrId1 w data) := 
  fun _ hP hi => decodePinAccess_target hP .id1 w hi .write _

theorem pinWrEdgeStatus (w : Width) (data : Word) : Statement (.pinWrEdgeStatus w data) := 
  fun _ hP hi => decodePinAccess_target hP .edgeStatus w hi .write _

theorem pinWrIrqEnable (w : Width) (data : Word) : Statement (.pinWrIrqEnable w data) := 
  fun _ hP hi => decodePinAccess_target hP .irqEnable w hi .write _

theorem pinWrEdgeTypeSelect (w : Width) (data : Word) : Statement (.pinWrEdgeTypeSelect w data) := 
  fun _ hP hi => decodePinAccess_target hP .edgeTypeSelect w hi .write _

theorem pinWrRisingEnable (w : Width) (data : Word) : Statement (.pinWrRisingEnable w data) := 
  fun _ hP hi => decodePinAccess_target hP .risingEnable w hi .write _

theorem pinWrFallingEnable (w : Width) (data : Word) : Statement (.pinWrFallingEnable w data) := 
  fun _ hP hi => decodePinAccess_target hP .fallingEnable w hi .write _

theorem pinWrFilterEnable (w : Width) (data : Word) : Statement (.pinWrFilterEnable w data) := 
  fun _ hP hi => decodePinAccess_target hP .filterEnable w hi .write _

theorem pinWrCfg (p : Fin nPins) (lane : Fin 4) (w : Width) (data : Word) : Statement (.pinWrCfg p lane w data) := 
  fun _ hP hi => decodePinAccess_target hP (.cfg p lane) w hi .write _

theorem pinWrOut (p : Fin nPins) (w : Width) (data : Word) : Statement (.pinWrOut p w data) := 
  fun _ hP hi => decodePinAccess_target hP (.out p) w hi .write _

theorem pinWrIn (p : Fin nPins) (w : Width) (data : Word) : Statement (.pinWrIn p w data) := 
  fun _ hP hi => decodePinAccess_target hP (.inp p) w hi .write _

theorem pinWrInvalid (off : Word) (w : Width) (data : Word) : Statement (.pinWrInvalid off w data) := 
  fun _ _ hi => decodePinAccess_invalid off w hi .write _

theorem pinEvSetInput (p : Fin nPins) (level : Bool) : Statement (.pinEvSetInput p level) := by
  intro P _ _
  have hp : p.val < nPins := p.isLt
  cases level <;> simp [encode, pinEventReq, decode, decodePinEvent]

theorem pinEvInvalidPin (p : Nat) (level : Bool) : Statement (.pinEvInvalidPin p level) := by
  intro P _ hi
  have hp : ¬ p < nPins := by simpa [Instr.wf] using hi
  cases level <;> simp [encode, pinEventReq, decode, decodePinEvent, hp]

theorem pinReset : Statement .pinReset := 
  fun _ _ _ => rfl

theorem uartRdVerid : Statement .uartRdVerid := 
  fun _ _ _ => decodeUartAccess_slot .verid .read _

theorem uartRdParam : Statement .uartRdParam := 
  fun _ _ _ => decodeUartAccess_slot .param .read _

theorem uartRdGlobal : Statement .uartRdGlobal := 
  fun _ _ _ => decodeUartAccess_slot .global .read _

theorem uartRdPincfg : Statement .uartRdPincfg := 
  fun _ _ _ => decodeUartAccess_slot .pincfg .read _

theorem uartRdBaud : Statement .uartRdBaud := 
  fun _ _ _ => decodeUartAccess_slot .baud .read _

theorem uartRdStat : Statement .uartRdStat := 
  fun _ _ _ => decodeUartAccess_slot .stat .read _

theorem uartRdCtrl : Statement .uartRdCtrl := 
  fun _ _ _ => decodeUartAccess_slot .ctrl .read _

theorem uartRdData : Statement .uartRdData := 
  fun _ _ _ => decodeUartAccess_slot .data .read _

theorem uartRdMatch : Statement .uartRdMatch := 
  fun _ _ _ => decodeUartAccess_slot .matchReg .read _

theorem uartRdModir : Statement .uartRdModir := 
  fun _ _ _ => decodeUartAccess_slot .modir .read _

theorem uartRdFifo : Statement .uartRdFifo := 
  fun _ _ _ => decodeUartAccess_slot .fifo .read _

theorem uartRdWater : Statement .uartRdWater := 
  fun _ _ _ => decodeUartAccess_slot .water .read _

theorem uartRdInvalid (off : Word) : Statement (.uartRdInvalid off) := 
  fun _ _ hi => decodeUartAccess_invalid off hi .read _

theorem uartWrVerid (v : Word) : Statement (.uartWrVerid v) := 
  fun _ _ _ => decodeUartAccess_slot .verid .write _

theorem uartWrParam (v : Word) : Statement (.uartWrParam v) := 
  fun _ _ _ => decodeUartAccess_slot .param .write _

theorem uartWrGlobal (v : Word) : Statement (.uartWrGlobal v) := 
  fun _ _ _ => decodeUartAccess_slot .global .write _

theorem uartWrPincfg (v : Word) : Statement (.uartWrPincfg v) := 
  fun _ _ _ => decodeUartAccess_slot .pincfg .write _

theorem uartWrBaud (v : Word) : Statement (.uartWrBaud v) := 
  fun _ _ _ => decodeUartAccess_slot .baud .write _

theorem uartWrStat (v : Word) : Statement (.uartWrStat v) := 
  fun _ _ _ => decodeUartAccess_slot .stat .write _

theorem uartWrCtrl (v : Word) : Statement (.uartWrCtrl v) := 
  fun _ _ _ => decodeUartAccess_slot .ctrl .write _

theorem uartWrData (v : Word) : Statement (.uartWrData v) := 
  fun _ _ _ => decodeUartAccess_slot .data .write _

theorem uartWrMatch (v : Word) : Statement (.uartWrMatch v) := 
  fun _ _ _ => decodeUartAccess_slot .matchReg .write _

theorem uartWrModir (v : Word) : Statement (.uartWrModir v) := 
  fun _ _ _ => decodeUartAccess_slot .modir .write _

theorem uartWrFifo (v : Word) : Statement (.uartWrFifo v) := 
  fun _ _ _ => decodeUartAccess_slot .fifo .write _

theorem uartWrWater (v : Word) : Statement (.uartWrWater v) := 
  fun _ _ _ => decodeUartAccess_slot .water .write _

theorem uartWrInvalid (off : Word) (v : Word) : Statement (.uartWrInvalid off v) := 
  fun _ _ hi => decodeUartAccess_invalid off hi .write _

theorem uartEvReceive (bytes : List Byte) : Statement (.uartEvReceive bytes) := 
  fun _ _ _ => rfl

theorem uartEvCanReceive : Statement .uartEvCanReceive := 
  fun _ _ _ => rfl

theorem uartReset : Statement .uartReset := 
  fun _ _ _ => rfl

end Sys2Proof.Laws.RoundTrip
end

