-- ==== Sys2Proof/Tests/Slice0.lean ====
section
/-! SUPPORT. Tests of one step each, with expected results from 95_test_vectors.md (vectors P1 to P88 and U1 to U69,
the worked examples of its part 1) and from the register maps of rules R37 and R39; ill-formed terms the checks refuse;
and for every statement with hypotheses a concrete state and operands that meet them. -/

namespace Sys2Proof.Tests

open Sys2Proof.Machine

/-! ### Helpers -/

/-- The outcome is a next state with property P. -/
def nextIs (o : Host.Outcome State Fault Refusal) (P : State → Bool) : Bool :=
  match o with
  | .next t => P t
  | _ => false

theorem exists_of_nextIs {o : Host.Outcome State Fault Refusal} {P : State → Bool} (h : nextIs o P = true) :
    ∃ t, o = .next t ∧ P t = true := by
  cases o <;> first | exact ⟨_, rfl, h⟩ | cases h

/-- One step on one request. -/
def on (s : State) (r : Request) (P : State → Bool) : Bool := nextIs (step { s with pending := [r] }) P

/-- The reset state under other parameters. -/
def under (P : Params) : State := { State.reset with params := P, uart := UartState.reset P }

/-- A pin as its configuration word makes it, with its latched level. -/
def pinSet (v : Word) (level : Bool) : PinSlot :=
  { PinSlot.reset with
    cfg := v, direction := cfgDirection defaultParams v, ibe := cfgIbe defaultParams v,
    inputLevel := level, prevInputLevel := level }

/-- The reset state with the pin controller changed. -/
def pinS (f : PinState → PinState) : State := State.reset.mapPin f

/-- The reset state with the serial controller changed. -/
def uartS (f : UartState → UartState) : State := State.reset.mapUart f

/-- CTRL, then these bytes received (with the line as given). -/
def received (ctrl : Word) (bytes : List Byte) (irq : Bool) : State :=
  uartS fun u => fifoPushAll { u with
    ctrl := ctrl, irq := irq, stat := if bytes = [] then 0x00C00000 else 0x00E00000 } bytes

/-- Pin p with IBE and its three enables as given (the setup "E(p)" of 95_test_vectors.md section 2.4). -/
def edgeS (p : Fin nPins) (r f i level : Bool) : State :=
  let m (b : Bool) : Word := if b then (1 : Word) <<< p.val else 0
  pinS fun c => { c.setSlot p (pinSet 0x00080000 level) with risingEnable := m r, fallingEnable := m f, irqEnable := m i }

/-! ### Ill-formed terms are refused -/

/-- Rule R64: a configuration slot's bytes 1 to 3 take no 4-byte access. -/
theorem test_wf_cfg_lane : (Instr.pinRdCfg 0 1 .b4).wf defaultParams = false := by decide

theorem test_wf_cfg_lane_write : (Instr.pinWrCfg 143 3 .b2 0).wf defaultParams = false := by decide

/-- Rule R64: pin 1's data slot is at an odd offset. -/
theorem test_wf_out_misaligned : (Instr.pinWrOut 1 .b2 1).wf defaultParams = false := by decide

theorem test_wf_in_misaligned : (Instr.pinRdIn 2 .b4).wf defaultParams = false := by decide

/-- Rule R64, a single register whose parameter is an odd offset. -/
theorem test_wf_register_misaligned :
    (Instr.pinRdId0 .b4).wf { defaultParams with pinOffId0 := 0x3 } = false := by decide

/-- Rule R86: an offset that decodes to a register is no invalid access. -/
theorem test_wf_invalid_decodes : (Instr.pinRdInvalid 0x010 .b4).wf defaultParams = false := by decide

/-- Rule R64: a misaligned offset past the window. -/
theorem test_wf_invalid_past_window : (Instr.pinWrInvalid 0x4002 .b4 0).wf defaultParams = false := by decide

theorem test_wf_invalid_misaligned : (Instr.pinRdInvalid 0x012 .b4).wf defaultParams = false := by decide

/-- Rule R174: offset 0x2C is the last slot. -/
theorem test_wf_uart_invalid_slot : (Instr.uartRdInvalid 0x2C).wf defaultParams = false := by decide

theorem test_wf_uart_invalid_misaligned : (Instr.uartWrInvalid 0x31 0).wf defaultParams = false := by decide

theorem test_wf_uart_invalid_past_window : (Instr.uartRdInvalid 0x4002).wf defaultParams = false := by decide

/-- Rule R145: index 143 is a pin. -/
theorem test_wf_invalid_pin : (Instr.pinEvInvalidPin 143 true).wf defaultParams = false := by decide

/-- Rule R7, each check of a parameter set in turn. -/
theorem test_params_window : ({ defaultParams with pinOffId0 := 0x4000 } : Params).wf = false := by decide

theorem test_params_block_past_window : ({ defaultParams with pinInBase := 0x3F71 } : Params).wf = false := by decide

theorem test_params_overlap : ({ defaultParams with pinOutBase := 0x47F } : Params).wf = false := by decide

theorem test_params_register_overlap : ({ defaultParams with pinOffId1 := 0x007 } : Params).wf = false := by decide

theorem test_params_cfg_bits_equal : ({ defaultParams with cfgIbeBit := 21 } : Params).wf = false := by decide

theorem test_params_cfg_bit_range : ({ defaultParams with cfgObeBit := 32 } : Params).wf = false := by decide

theorem test_params_edge_bits : ({ defaultParams with edgeBitTable := [some 3, none, some 3] } : Params).wf = false := by decide

theorem test_params_stat_bits : ({ defaultParams with statPf := 23 } : Params).wf = false := by decide

theorem test_params_ctrl_bits : ({ defaultParams with ctrlRe := 19 } : Params).wf = false := by decide

/-- The checks beyond rule R7's words (log entry 10). -/
theorem test_params_stat_range : ({ defaultParams with statIdle := 32 } : Params).wf = false := by decide

theorem test_params_ctrl_range : ({ defaultParams with ctrlTe := 32 } : Params).wf = false := by decide

theorem test_params_window_size :
    ({ defaultParams with pinWindow := 2 ^ 32 + 1 } : Params).wf = false ∧
    ({ defaultParams with uartWindow := 2 ^ 32 + 1 } : Params).wf = false := by decide

/-! ### Decoding, from requests written out from rules R37, R39 and R80 -/

/-- Rule R37, single registers. -/
theorem test_decode_pin_read_registers :
    decode defaultParams (.mmioR .pin 0x004 4) = .instr (.pinRdId0 .b4) ∧
    decode defaultParams (.mmioR .pin 0x008 2) = .instr (.pinRdId1 .b2) ∧
    decode defaultParams (.mmioR .pin 0x010 1) = .instr (.pinRdEdgeStatus .b1) ∧
    decode defaultParams (.mmioR .pin 0x018 4) = .instr (.pinRdIrqEnable .b4) ∧
    decode defaultParams (.mmioR .pin 0x020 4) = .instr (.pinRdEdgeTypeSelect .b4) ∧
    decode defaultParams (.mmioR .pin 0x028 4) = .instr (.pinRdRisingEnable .b4) ∧
    decode defaultParams (.mmioR .pin 0x030 4) = .instr (.pinRdFallingEnable .b4) ∧
    decode defaultParams (.mmioR .pin 0x038 4) = .instr (.pinRdFilterEnable .b4) := by decide

/-- Rules R37, R83, the blocks at their ends, and P16, P25, P29, P32. -/
theorem test_decode_pin_read_blocks :
    decode defaultParams (.mmioR .pin 0x240 4) = .instr (.pinRdCfg 0 0 .b4) ∧
    decode defaultParams (.mmioR .pin 0x47E 2) = .instr (.pinRdCfg 143 2 .b2) ∧
    decode defaultParams (.mmioR .pin 0x1300 4) = .instr (.pinRdOut 0 .b4) ∧
    decode defaultParams (.mmioR .pin 0x138F 1) = .instr (.pinRdOut 143 .b1) ∧
    decode defaultParams (.mmioR .pin 0x1502 2) = .instr (.pinRdIn 2 .b2) ∧
    decode defaultParams (.mmioR .pin 0x158F 1) = .instr (.pinRdIn 143 .b1) ∧
    decode defaultParams (.mmioR .pin 0x013 1) = .instr (.pinRdInvalid 0x013 .b1) ∧
    decode defaultParams (.mmioR .pin 0x480 4) = .instr (.pinRdInvalid 0x480 .b4) ∧
    decode defaultParams (.mmioR .pin 0x1390 1) = .instr (.pinRdInvalid 0x1390 .b1) ∧
    decode defaultParams (.mmioR .pin 0x1590 1) = .instr (.pinRdInvalid 0x1590 .b1) := by decide

theorem test_decode_pin_write_registers :
    decode defaultParams (.mmioW .pin 0x004 4 1) = .instr (.pinWrId0 .b4 1) ∧
    decode defaultParams (.mmioW .pin 0x008 4 2) = .instr (.pinWrId1 .b4 2) ∧
    decode defaultParams (.mmioW .pin 0x010 1 0xFF) = .instr (.pinWrEdgeStatus .b1 0xFF) ∧
    decode defaultParams (.mmioW .pin 0x018 4 3) = .instr (.pinWrIrqEnable .b4 3) ∧
    decode defaultParams (.mmioW .pin 0x020 4 4) = .instr (.pinWrEdgeTypeSelect .b4 4) ∧
    decode defaultParams (.mmioW .pin 0x028 2 5) = .instr (.pinWrRisingEnable .b2 5) ∧
    decode defaultParams (.mmioW .pin 0x030 4 6) = .instr (.pinWrFallingEnable .b4 6) ∧
    decode defaultParams (.mmioW .pin 0x038 4 7) = .instr (.pinWrFilterEnable .b4 7) := by decide

theorem test_decode_pin_write_blocks :
    decode defaultParams (.mmioW .pin 0x24C 4 8) = .instr (.pinWrCfg 3 0 .b4 8) ∧
    decode defaultParams (.mmioW .pin 0x1307 1 0xFF) = .instr (.pinWrOut 7 .b1 0xFF) ∧
    decode defaultParams (.mmioW .pin 0x1504 1 0) = .instr (.pinWrIn 4 .b1 0) ∧
    decode defaultParams (.mmioW .pin 0x100 4 1) = .instr (.pinWrInvalid 0x100 .b4 1) := by decide

/-- Rules R140, R145, R147 and the other events of rule R80. -/
theorem test_decode_events :
    decode defaultParams (.pinEv 143 1) = .instr (.pinEvSetInput 143 true) ∧
    decode defaultParams (.pinEv 0 0) = .instr (.pinEvSetInput 0 false) ∧
    decode defaultParams (.pinEv 144 1) = .instr (.pinEvInvalidPin 144 true) ∧
    decode defaultParams (.reset .pin) = .instr .pinReset ∧
    decode defaultParams (.rxEv [0x41, 0x42]) = .instr (.uartEvReceive [0x41, 0x42]) ∧
    decode defaultParams .rxQ = .instr .uartEvCanReceive ∧
    decode defaultParams (.reset .uart) = .instr .uartReset := by decide

/-- Rule R39. -/
theorem test_decode_uart_reads :
    decode defaultParams (.mmioR .uart 0x00 4) = .instr .uartRdVerid ∧
    decode defaultParams (.mmioR .uart 0x04 4) = .instr .uartRdParam ∧
    decode defaultParams (.mmioR .uart 0x08 4) = .instr .uartRdGlobal ∧
    decode defaultParams (.mmioR .uart 0x0C 4) = .instr .uartRdPincfg ∧
    decode defaultParams (.mmioR .uart 0x10 4) = .instr .uartRdBaud ∧
    decode defaultParams (.mmioR .uart 0x14 4) = .instr .uartRdStat ∧
    decode defaultParams (.mmioR .uart 0x18 4) = .instr .uartRdCtrl ∧
    decode defaultParams (.mmioR .uart 0x1C 4) = .instr .uartRdData ∧
    decode defaultParams (.mmioR .uart 0x20 4) = .instr .uartRdMatch ∧
    decode defaultParams (.mmioR .uart 0x24 4) = .instr .uartRdModir ∧
    decode defaultParams (.mmioR .uart 0x28 4) = .instr .uartRdFifo ∧
    decode defaultParams (.mmioR .uart 0x2C 4) = .instr .uartRdWater ∧
    decode defaultParams (.mmioR .uart 0x30 4) = .instr (.uartRdInvalid 0x30) := by decide

theorem test_decode_uart_writes :
    decode defaultParams (.mmioW .uart 0x00 4 1) = .instr (.uartWrVerid 1) ∧
    decode defaultParams (.mmioW .uart 0x04 4 2) = .instr (.uartWrParam 2) ∧
    decode defaultParams (.mmioW .uart 0x08 4 3) = .instr (.uartWrGlobal 3) ∧
    decode defaultParams (.mmioW .uart 0x0C 4 4) = .instr (.uartWrPincfg 4) ∧
    decode defaultParams (.mmioW .uart 0x10 4 5) = .instr (.uartWrBaud 5) ∧
    decode defaultParams (.mmioW .uart 0x14 4 6) = .instr (.uartWrStat 6) ∧
    decode defaultParams (.mmioW .uart 0x18 4 7) = .instr (.uartWrCtrl 7) ∧
    decode defaultParams (.mmioW .uart 0x1C 4 8) = .instr (.uartWrData 8) ∧
    decode defaultParams (.mmioW .uart 0x20 4 9) = .instr (.uartWrMatch 9) ∧
    decode defaultParams (.mmioW .uart 0x24 4 10) = .instr (.uartWrModir 10) ∧
    decode defaultParams (.mmioW .uart 0x28 4 11) = .instr (.uartWrFifo 11) ∧
    decode defaultParams (.mmioW .uart 0x2C 4 12) = .instr (.uartWrWater 12) ∧
    decode defaultParams (.mmioW .uart 0x3FFC 4 1) = .instr (.uartWrInvalid 0x3FFC 1) := by decide

/-- The numbering of log entry 12: offset 0x1C, bit 32 UART, bit 33 WRITE, bits 35..34 width, bits 67..36 value. -/
theorem test_table_words :
    decodeTableWord 32 0x00000010 = some (.pinRdEdgeStatus .b4) ∧
    decodeTableWord 72 0x10000001C = some .uartRdData ∧
    decodeTableWord 72 0x41300000018 = some (.uartWrCtrl 0x41) ∧
    decodeTableWord 72 0xFA00001300 = some (.pinWrOut 0 .b2 0xF) ∧
    decodeTableWord 32 0x00000011 = none := by decide

/-- The word placed by `withFetchWord` is what the next step runs. -/
theorem test_fetch_word : nextIs (step (State.reset.withFetchWord 72 0x84300000018))
    (fun t => t.uart.ctrl = 0x84 ∧ t.pending = []) = true := by decide

/-! ### Pin controller: entry checks -/

/-- P1: the width is checked first. -/
theorem test_P1 : on State.reset (.mmioR .pin 0x010 3) (fun t =>
    t.reply = .word 0 ∧ t.log = [⟨.pin, .invalidWidth, .access .read 0x010 3⟩]) = true := by decide

/-- P2. -/
theorem test_P2 : on State.reset (.mmioW .pin 0x011 3 0xFF) (fun t =>
    t.log = [⟨.pin, .invalidWidth, .access .write 0x011 3⟩]) = true := by decide

/-- P3, P5, P6: misaligned accesses are refused, before decode. -/
theorem test_P3_P5_P6 :
    decode defaultParams (.mmioR .pin 0x012 4) = .reject .misaligned ∧
    decode defaultParams (.mmioW .pin 0x1301 2 1) = .reject .misaligned ∧
    decode defaultParams (.mmioW .pin 0x241 4 1) = .reject .misaligned := by decide

/-- P81, P82: the level is checked before the index. -/
theorem test_P81_P82 :
    decode defaultParams (.pinEv 3 2) = .reject .levelDomain ∧
    decode defaultParams (.pinEv 200 2) = .reject .levelDomain := by decide

/-! ### Pin controller: reads -/

/-- P10 with a value given to the OPEN parameter, at width 1. -/
theorem test_P10 : on (under { defaultParams with pinIdValue0 := 0x12345678 }) (.mmioR .pin 0x004 1)
    (fun t => t.reply = .word 0x78) = true := by decide

/-- P11, in the same way. -/
theorem test_P11 : on (under { defaultParams with pinIdValue1 := 0x89ABCDEF }) (.mmioR .pin 0x008 4)
    (fun t => t.reply = .word 0x89ABCDEF) = true := by decide

/-- P13: the read does not clear. -/
theorem test_P13 : on (pinS fun c => { c with edgeStatus := 0x80000001, irq := true }) (.mmioR .pin 0x010 4)
    (fun t => t.reply = .word 0x80000001 ∧ t.pin.edgeStatus = 0x80000001) = true := by decide

/-- P14. -/
theorem test_P14 : on (pinS fun c => { c with edgeStatus := 0x80000001, irq := true }) (.mmioR .pin 0x010 1)
    (fun t => t.reply = .word 0x01) = true := by decide

/-- P17. -/
theorem test_P17 : on (pinS fun c => { c with irqEnable := 0xFFFFFFFF }) (.mmioR .pin 0x018 4)
    (fun t => t.reply = .word 0xFFFFFFFF) = true := by decide

/-- P18. -/
theorem test_P18 : on (pinS fun c => { c with edgeTypeSelect := 0x12345678 }) (.mmioR .pin 0x020 2)
    (fun t => t.reply = .word 0x5678) = true := by decide

/-- P19. -/
theorem test_P19 : on (pinS fun c => { c with risingEnable := 0x00FF00FF }) (.mmioR .pin 0x028 4)
    (fun t => t.reply = .word 0x00FF00FF) = true := by decide

/-- P20. -/
theorem test_P20 : on (pinS fun c => { c with fallingEnable := 0x80000000 }) (.mmioR .pin 0x030 1)
    (fun t => t.reply = .word 0) = true := by decide

/-- P52's read, with the register writable. -/
theorem test_P52_read : on (pinS fun c => { c with filterEnable := 0xFF }) (.mmioR .pin 0x038 4)
    (fun t => t.reply = .word 0xFF) = true := by decide

/-- P23: any byte of the slot, low bits. -/
theorem test_P23 : on (pinS fun c => c.setSlot 143 (pinSet 0xDEADBEEF false)) (.mmioR .pin 0x47F 1)
    (fun t => t.reply = .word 0xEF) = true := by decide

/-- P24. -/
theorem test_P24 : on (pinS fun c => c.setSlot 143 (pinSet 0xDEADBEEF false)) (.mmioR .pin 0x47E 2)
    (fun t => t.reply = .word 0xBEEF) = true := by decide

/-- P27: pin 4 only, pin 5 is not packed in. -/
theorem test_P27 : on (pinS fun c => c.setSlot 5 { PinSlot.reset with outputLevel := true }) (.mmioR .pin 0x1304 4)
    (fun t => t.reply = .word 0) = true := by decide

/-- P26's read. -/
theorem test_P26_read : on (pinS fun c => c.setSlot 7 { PinSlot.reset with outputLevel := true }) (.mmioR .pin 0x1307 1)
    (fun t => t.reply = .word 1) = true := by decide

/-- P30. -/
theorem test_P30 : on (pinS fun c => c.setSlot 2 (pinSet 0x00080000 true)) (.mmioR .pin 0x1502 1)
    (fun t => t.reply = .word 1) = true := by decide

/-- P31: the latch is kept while IBE is off. -/
theorem test_P31 : on (pinS fun c => c.setSlot 2 (pinSet 0 true)) (.mmioR .pin 0x1502 1)
    (fun t => t.reply = .word 1) = true := by decide

/-- P12: no third identification register. -/
theorem test_P12 : on State.reset (.mmioR .pin 0x00C 4)
    (fun t => t.reply = .word 0 ∧ t.log = [⟨.pin, .invalidAddress, .access .read 0x00C 4⟩]) = true := by decide

/-! ### Pin controller: writes -/

/-- P40. -/
theorem test_P40 : on State.reset (.mmioW .pin 0x004 4 0)
    (fun t => t.log = [⟨.pin, .invalidAddress, .access .write 0x004 4⟩]) = true := by decide

/-- 95_test_vectors.md 3.5, line 5. -/
theorem test_write_id1 : on State.reset (.mmioW .pin 0x008 4 0)
    (fun t => t.log = [⟨.pin, .invalidAddress, .access .write 0x008 4⟩]) = true := by decide

/-- P41: a remaining bit keeps the line. -/
theorem test_P41 : on (pinS fun c => { c with edgeStatus := 0xC, irq := true }) (.mmioW .pin 0x010 4 0x4)
    (fun t => t.pin.edgeStatus = 0x8 ∧ t.pin.irq = true ∧ t.trace = []) = true := by decide

/-- P42: the last bit lowers the line. -/
theorem test_P42 : on (pinS fun c => { c with edgeStatus := 0xC, irq := true }) (.mmioW .pin 0x010 4 0xFFFFFFFF)
    (fun t => t.pin.edgeStatus = 0 ∧ t.pin.irq = false ∧ t.trace = [.setIrq .pin false]) = true := by decide

/-- P46: verbatim replace, narrow. -/
theorem test_P46 : on (pinS fun c => { c with irqEnable := 0xFFFFFFFF }) (.mmioW .pin 0x018 1 0x01)
    (fun t => t.pin.irqEnable = 1) = true := by decide

/-- P47: masking lowers nothing. -/
theorem test_P47 : on (pinS fun c => { c with edgeStatus := 1, irqEnable := 1, irq := true }) (.mmioW .pin 0x018 4 0)
    (fun t => t.pin.edgeStatus = 1 ∧ t.pin.irq = true ∧ t.trace = []) = true := by decide

/-- P48. -/
theorem test_P48 : on State.reset (.mmioW .pin 0x020 4 0xFFFFFFFF)
    (fun t => t.pin.edgeTypeSelect = 0xFFFFFFFF) = true := by decide

/-- P49. -/
theorem test_P49 : on State.reset (.mmioW .pin 0x028 4 0x8)
    (fun t => t.pin.risingEnable = 0x8 ∧ t.pin.fallingEnable = 0) = true := by decide

/-- P50. -/
theorem test_P50 : on State.reset (.mmioW .pin 0x030 4 0x8)
    (fun t => t.pin.fallingEnable = 0x8 ∧ t.pin.risingEnable = 0) = true := by decide

/-- P51: not writable by default. -/
theorem test_P51 : on State.reset (.mmioW .pin 0x038 4 0xFF) (fun t =>
    t.pin.filterEnable = 0 ∧ t.log = [⟨.pin, .invalidAddress, .access .write 0x038 4⟩]) = true := by decide

/-- P52: the parameter variant. -/
theorem test_P52 : on (under { defaultParams with pinFilterWritable := true }) (.mmioW .pin 0x038 4 0xFF)
    (fun t => t.pin.filterEnable = 0xFF ∧ t.log = []) = true := by decide

/-- P53, P54: a direction change drives nothing. -/
theorem test_P53_P54 : on (pinS fun c => c.setSlot 0 { PinSlot.reset with outputLevel := true })
    (.mmioW .pin 0x240 4 0x00200000) (fun t =>
      (t.pin.slot 0).direction = .output ∧ (t.pin.slot 0).ibe = false ∧ t.trace = []) = true := by decide

/-- P55: a narrow write zeroes OBE and IBE. -/
theorem test_P55 : on (pinS fun c => c.setSlot 0 (pinSet 0x00280000 false)) (.mmioW .pin 0x240 1 0x28) (fun t =>
    (t.pin.slot 0).cfg = 0x28 ∧ (t.pin.slot 0).direction = .input ∧ (t.pin.slot 0).ibe = false) = true := by decide

/-- P57: driven again at the same level. -/
theorem test_P57 : on (pinS fun c => c.setSlot 0 { pinSet 0x00200000 false with outputLevel := true })
    (.mmioW .pin 0x1300 1 0x03) (fun t => t.trace = [.drivePin 0 true]) = true := by decide

/-- P58: the same with `PIN_DRIVE_ON_CHANGE_ONLY`. -/
theorem test_P58 : on { (pinS fun c => c.setSlot 0 { pinSet 0x00200000 false with outputLevel := true }) with
      params := { defaultParams with pinDriveOnChangeOnly := true } }
    (.mmioW .pin 0x1300 1 0x03) (fun t => t.trace = [] ∧ (t.pin.slot 0).outputLevel = true) = true := by decide

/-- P62. -/
theorem test_P62 : on (pinS fun c => c.setSlot 4 (pinSet 0x00080000 true)) (.mmioW .pin 0x1504 1 0) (fun t =>
    (t.pin.slot 4).inputLevel = true ∧ t.log = [⟨.pin, .readOnly, .access .write 0x1504 1⟩]) = true := by decide

/-- P63. -/
theorem test_P63 : on State.reset (.mmioW .pin 0x011 1 0xFF)
    (fun t => t.log = [⟨.pin, .invalidAddress, .access .write 0x011 1⟩]) = true := by decide

/-! ### Pin controller: events and reset -/

/-- P70: the first rise after reset. -/
theorem test_P70 : on (edgeS 3 true false true false) (.pinEv 3 1) (fun t =>
    t.pin.edgeStatus = 0x8 ∧ t.pin.irq = true ∧ t.trace = [.setIrq .pin true]) = true := by decide

/-- P74: a disabled interrupt, the level is latched all the same. -/
theorem test_P74 : on (edgeS 3 true false false false) (.pinEv 3 1) (fun t =>
    t.pin.edgeStatus = 0 ∧ (t.pin.slot 3).inputLevel = true ∧ t.trace = []) = true := by decide

/-- P80. -/
theorem test_P80 : on State.reset (.pinEv 144 1)
    (fun t => t.log = [⟨.pin, .invalidPin, .pinEvent 144⟩]) = true := by decide

/-- P87: the reset lowers the line. -/
theorem test_P87 : on { edgeS 3 true false true true with
      pin := { (edgeS 3 true false true true).pin with edgeStatus := 8, irq := true } } (.reset .pin) (fun t =>
    t.pin.edgeStatus = 0 ∧ t.pin.irqEnable = 0 ∧ (t.pin.slot 3).cfg = 0 ∧ t.trace = [.setIrq .pin false]) = true := by
  decide

/-- P88: idempotent. -/
theorem test_P88 : on State.reset (.reset .pin) (fun t => t.trace = [] ∧ t.pin.irq = false) = true := by decide

/-! ### Serial controller: entry checks and reads -/

/-- U1: no pop. -/
theorem test_U1 : on (received 0x00040000 [0x41] false) (.mmioR .uart 0x1C 1) (fun t =>
    t.reply = .word 0 ∧ t.uart.rxLen = 1 ∧ t.log = [⟨.uart, .invalidWidth, .access .read 0x1C 1⟩]) = true := by decide

/-- U3, U4: alignment is checked first. -/
theorem test_U3_U4 :
    decode defaultParams (.mmioR .uart 0x1E 4) = .reject .misaligned ∧
    decode defaultParams (.mmioR .uart 0x1E 2) = .reject .misaligned := by decide

/-- U10, U11 with values given to the OPEN parameters. -/
theorem test_U10 : on (under { defaultParams with uartVeridValue := 0x04040007 }) (.mmioR .uart 0x00 4)
    (fun t => t.reply = .word 0x04040007) = true := by decide

theorem test_U11 : on (under { defaultParams with uartParamValue := 0x00000404 }) (.mmioR .uart 0x04 4)
    (fun t => t.reply = .word 0x00000404) = true := by decide

/-- U12 with a value given to `UART_RESET[GLOBAL]`. -/
theorem test_U12 : on (under { defaultParams with uartReset := ⟨1, 2, 3, 4, 5, 6, 7⟩ }) (.mmioR .uart 0x08 4)
    (fun t => t.reply = .word 1) = true := by decide

/-- U33's read. -/
theorem test_U33_read : on (uartS fun u => { u with plain := ⟨0, 1, 0, 0, 0, 0, 0⟩ }) (.mmioR .uart 0x0C 4)
    (fun t => t.reply = .word 1) = true := by decide

/-- U13's read. -/
theorem test_U13_read : on (uartS fun u => { u with plain := ⟨0, 0, 0x0F00001A, 0, 0, 0, 0⟩ }) (.mmioR .uart 0x10 4)
    (fun t => t.reply = .word 0x0F00001A) = true := by decide

/-- U14. -/
theorem test_U14 : on State.reset (.mmioR .uart 0x14 4) (fun t => t.reply = .word 0x00C00000) = true := by decide

/-- U15. -/
theorem test_U15 : on (received 0x00040000 [0x41] false) (.mmioR .uart 0x14 4)
    (fun t => t.reply = .word 0x00E00000 ∧ t.uart.stat = 0x00E00000) = true := by decide

/-- U16's read. -/
theorem test_U16_read : on (uartS fun u => { u with ctrl := 0xFFFFFFFF, irq := true }) (.mmioR .uart 0x18 4)
    (fun t => t.reply = .word 0xFFFFFFFF) = true := by decide

/-- U21: RDRF is cleared, the line stays. -/
theorem test_U21 : on (received 0x00240000 [1] true) (.mmioR .uart 0x1C 4) (fun t =>
    t.reply = .word 1 ∧ t.uart.stat = 0x00C00000 ∧ t.uart.irq = true ∧ t.trace = []) = true := by decide

/-- U22: the parameter variant. -/
theorem test_U22 : on { received 0x00240000 [1] true with
      params := { defaultParams with uartIrqUpdateOnDrain := true } } (.mmioR .uart 0x1C 4) (fun t =>
    t.reply = .word 1 ∧ t.uart.irq = false ∧ t.trace = [.setIrq .uart false]) = true := by decide

/-- U23, U24, U25, U26: the reads. -/
theorem test_U23_read : on (uartS fun u => { u with plain := ⟨0, 0, 0, 0x00410042, 0, 0, 0⟩ }) (.mmioR .uart 0x20 4)
    (fun t => t.reply = .word 0x00410042) = true := by decide

theorem test_U24_read : on (uartS fun u => { u with plain := ⟨0, 0, 0, 0, 1, 0, 0⟩ }) (.mmioR .uart 0x24 4)
    (fun t => t.reply = .word 1) = true := by decide

theorem test_U25 : on (uartS fun u => fifoPushAll { u with ctrl := 0x00040000, plain := ⟨1, 2, 3, 4, 5, 6, 7⟩ } [1, 2, 3])
    (.mmioR .uart 0x28 4) (fun t => t.reply = .word 6) = true := by decide

theorem test_U26_read : on (uartS fun u => { u with plain := ⟨0, 0, 0, 0, 0, 0, 0x00010001⟩ }) (.mmioR .uart 0x2C 4)
    (fun t => t.reply = .word 0x00010001) = true := by decide

/-- U6. -/
theorem test_U6 : on State.reset (.mmioR .uart 0x30 4)
    (fun t => t.reply = .word 0 ∧ t.log = [⟨.uart, .invalidAddress, .access .read 0x30 4⟩]) = true := by decide

/-! ### Serial controller: writes -/

/-- U30, U31: dropped without a record. -/
theorem test_U30 : on State.reset (.mmioW .uart 0x00 4 0x12345678) (fun t => t.log = [] ∧ t.reply = .none) = true := by
  decide

theorem test_U31 : on State.reset (.mmioW .uart 0x04 4 0) (fun t => t.log = [] ∧ t.reply = .none) = true := by decide

/-- U32: no reset effect. -/
theorem test_U32 : on (received 0x00040000 [1] false) (.mmioW .uart 0x08 4 0xFFFFFFFF) (fun t =>
    t.uart.plain.globalReg = 0xFFFFFFFF ∧ t.uart.ctrl = 0x00040000 ∧ t.uart.rxLen = 1) = true := by decide

/-- U33. -/
theorem test_U33 : on State.reset (.mmioW .uart 0x0C 4 1) (fun t => t.uart.plain.pincfg = 1) = true := by decide

/-- U34. -/
theorem test_U34 : on State.reset (.mmioW .uart 0x10 4 0x0F000004) (fun t => t.uart.plain.baud = 0x0F000004) = true := by
  decide

/-- U36: TDRE, TC and RDRF are unaffected. -/
theorem test_U36 : on (received 0x00040000 [7] false) (.mmioW .uart 0x14 4 0x00E00000)
    (fun t => t.uart.stat = 0x00E00000) = true := by decide

/-- Rule R180, a clearable flag (OR, bit 19) in a state no run reaches. -/
theorem test_stat_clears : on (uartS fun u => { u with stat := 0x00DF0000 }) (.mmioW .uart 0x14 4 0x00080000)
    (fun t => t.uart.stat = 0x00D70000) = true := by decide

/-- U37: TIE raises the line. -/
theorem test_U37 : on State.reset (.mmioW .uart 0x18 4 0x00800000) (fun t =>
    t.uart.ctrl = 0x00800000 ∧ t.uart.irq = true ∧ t.trace = [.setIrq .uart true]) = true := by decide

/-- U41: RIE with a byte in the FIFO. -/
theorem test_U41 : on (received 0x00040000 [1] false) (.mmioW .uart 0x18 4 0x00240000)
    (fun t => t.uart.irq = true ∧ t.trace = [.setIrq .uart true]) = true := by decide

/-- U42: the low byte. -/
theorem test_U42 : on (uartS fun u => { u with ctrl := 0x00080000 }) (.mmioW .uart 0x1C 4 0x00001234)
    (fun t => t.trace = [.transmitByte 0x34] ∧ t.uart.rxLen = 0) = true := by decide

/-- U43: silently ignored. -/
theorem test_U43 : on State.reset (.mmioW .uart 0x1C 4 0x48) (fun t => t.trace = [] ∧ t.log = []) = true := by decide

/-- U45. -/
theorem test_U45 : on State.reset (.mmioW .uart 0x20 4 7) (fun t => t.uart.plain.matchReg = 7) = true := by decide

/-- U24's write. -/
theorem test_U24_write : on State.reset (.mmioW .uart 0x24 4 1) (fun t => t.uart.plain.modir = 1) = true := by decide

/-- U47: no flush. -/
theorem test_U47 : on (received 0x00040000 [1, 2] false) (.mmioW .uart 0x28 4 0x0000C000)
    (fun t => t.uart.plain.fifoReg = 0x0000C000 ∧ t.uart.rxLen = 2) = true := by decide

/-- U48. -/
theorem test_U48 : on State.reset (.mmioW .uart 0x2C 4 3) (fun t => t.uart.plain.water = 3) = true := by decide

/-- U49. -/
theorem test_U49 : on State.reset (.mmioW .uart 0x30 4 1)
    (fun t => t.log = [⟨.uart, .invalidAddress, .access .write 0x30 4⟩]) = true := by decide

/-! ### Serial controller: events and reset -/

/-- U60: RE clear. -/
theorem test_U60 : on State.reset (.rxEv [1, 2]) (fun t => t.reply = .count 0 ∧ t.uart.rxLen = 0) = true := by decide

/-- U66: one byte fits in a FIFO of 15, and 95_test_vectors.md 3.4 line 7 (the storage wraps around). -/
theorem test_U66 : on (uartS fun u => { u with ctrl := 0x00040000, rxHead := 2, rxLen := 15, stat := 0x00E00000 })
    (.rxEv [0xA, 0xB]) (fun t => t.reply = .count 1 ∧ t.uart.rxLen = 16 ∧ t.uart.rxBuf[1] = 0xA) = true := by decide

/-- U67. -/
theorem test_U67 : on State.reset .rxQ (fun t => t.reply = .count 16) = true := by decide

/-- U68. -/
theorem test_U68 : on (received 0x00840000 [1] true) (.reset .uart) (fun t =>
    t.uart.stat = 0x00C00000 ∧ t.uart.ctrl = 0 ∧ t.uart.rxLen = 0 ∧ t.trace = [.setIrq .uart false]) = true := by decide

/-- U69. -/
theorem test_U69 : on State.reset (.reset .uart) (fun t => t.trace = []) = true := by decide

/-! ### Witnesses: for every statement with hypotheses, a state and operands that meet them -/

theorem next_of {o : Host.Outcome State Fault Refusal} {P : State → Prop} [DecidablePred P]
    (h : nextIs o (fun t => decide (P t)) = true) : ∃ t, o = .next t ∧ P t := by
  obtain ⟨t, ht, hp⟩ := exists_of_nextIs h
  exact ⟨t, ht, of_decide_eq_true hp⟩

/-- A state with one request pending. -/
def asking (s : State) (r : Request) : State := { s with pending := [r] }

/-- The request decodes to the operation, so a state asking for it performs it. -/
theorem asking_performs {s : State} {r : Request} {i : Instr} (h : decode s.params r = .instr i) :
    (asking s r).performs i := ⟨r, [], rfl, h⟩

/-- Only the 32 positions of STAT matter. -/
theorem statOthers_of_lt {s : State} (h : ∀ i < 32, i ≠ s.params.statTdre → i ≠ s.params.statTc →
    i ≠ s.params.statRdrf → bit s.uart.stat i = false) : StatOthersClear s := by
  intro i h1 h2 h3
  by_cases hi : i < 32
  · exact h i hi h1 h2 h3
  · cases hb : bit s.uart.stat i
    · rfl
    · exact absurd (bit_lt hb) hi

/-- The invariant of a state whose pin controller is at reset. -/
theorem inv_of_pin_reset {s : State} (hw : s.params.wf = true) (hp : s.pin = PinState.reset) (hf : StatFlags s)
    (ho : StatOthersClear s) (hl : UartLineFollows s) : s.Inv := by
  have hs : ∀ p, s.pin.slot p = PinSlot.reset := fun p => by rw [hp, reset_slot]
  refine ⟨hw, ?_, ?_, ?_, ?_, hf, ho, hl⟩
  · intro p; rw [hs]; simp [PinSlot.reset, cfgDirection, cfgIbe]
  · intro p; rw [hs]; rfl
  · rw [PinLineFollows, hp]; exact ⟨fun h => absurd rfl h, fun _ h => absurd h (by decide)⟩
  · rw [FilterFixed, hp]; exact fun _ => rfl

/-- One byte in the FIFO, RIE and RE set, the line high. -/
def drainS : State := received 0x00240000 [1] true

theorem drainS_inv : drainS.Inv := by
  refine inv_of_pin_reset (by decide) rfl ?_ (statOthers_of_lt (by decide)) ?_
  · unfold StatFlags; decide
  · unfold UartLineFollows; decide

/-- The same with the line recomputed on the drain. -/
def drainS' : State := { drainS with params := { defaultParams with uartIrqUpdateOnDrain := true } }

theorem drainS'_inv : drainS'.Inv := by
  refine inv_of_pin_reset (by decide) rfl ?_ (statOthers_of_lt (by decide)) ?_
  · unfold StatFlags; decide
  · unfold UartLineFollows; decide

/-- Both clauses of `WriteOneToClearIsIdempotent`. -/
theorem test_witness_WriteOneToClearIsIdempotent :
    (∃ t, exec (.pinWrEdgeStatus .b4 6) (pinS fun c => { c with edgeStatus := 0xC, irq := true }) = .next t ∧
      t.pin.edgeStatus = 8) ∧
    (∃ t, exec (.uartWrStat 0x00080000) (uartS fun u => { u with stat := 0x00DF0000 }) = .next t ∧
      t.uart.stat = 0x00D70000) :=
  ⟨next_of (by decide), next_of (by decide)⟩

theorem test_witness_FilterEnableWriteFollowsTheParameter :
    (under { defaultParams with pinFilterWritable := true }).params.pinFilterWritable = true ∧
    State.reset.params.pinFilterWritable = false := by decide

/-- `OutWriteStoresAndDrives`: driven always, driven on a change only, and the two ways not to be. -/
theorem test_witness_OutWriteStoresAndDrives :
    (pinS fun c => c.setSlot 143 (pinSet 0x00200000 false)).pin.pins[(143 : Fin nPins)].direction = .output ∧
    State.reset.params.pinDriveOnChangeOnly = false ∧
    (({ defaultParams with pinDriveOnChangeOnly := true } : Params).pinDriveOnChangeOnly = true ∧ true ≠ false) ∧
    State.reset.pin.pins[(0 : Fin nPins)].direction = .input := by decide

/-- `NarrowWritesReplaceTheWholeRegister`, each clause. -/
theorem test_witness_NarrowWrites :
    (∃ t, exec (.pinWrIrqEnable .b1 0x01) (pinS fun c => { c with irqEnable := 0xFFFFFFFF }) = .next t ∧
      t.pin.irqEnable = 1) ∧
    (∃ t, exec (.pinWrEdgeTypeSelect .b2 0x1FFFF) (pinS fun c => { c with edgeTypeSelect := 0x30000 }) = .next t ∧
      t.pin.edgeTypeSelect = 0xFFFF) ∧
    (∃ t, exec (.pinWrRisingEnable .b1 0xFF) (pinS fun c => { c with risingEnable := 0x100 }) = .next t ∧
      t.pin.risingEnable = 0xFF) ∧
    (∃ t, exec (.pinWrFallingEnable .b2 0) (pinS fun c => { c with fallingEnable := 0x10000 }) = .next t ∧
      t.pin.fallingEnable = 0) ∧
    (∃ t, exec (.pinWrFilterEnable .b1 0x1FF) (under { defaultParams with pinFilterWritable := true }) = .next t ∧
      t.pin.filterEnable = 0xFF) ∧
    (State.reset.params.cfgObeBit = 21 ∧ State.reset.params.cfgIbeBit = 19 ∧
      ∃ t, exec (.pinWrCfg 143 2 .b2 0xFFFFFFFF) State.reset = .next t ∧ (t.pin.slot 143).cfg = 0xFFFF) ∧
    (∃ t, exec (.pinWrEdgeStatus .b2 0xFFFFFFFF) (pinS fun c => { c with edgeStatus := 0x18000, irq := true }) = .next t ∧
      t.pin.edgeStatus = 0x10000) :=
  ⟨next_of (by decide), next_of (by decide), next_of (by decide), next_of (by decide), next_of (by decide),
    ⟨rfl, rfl, next_of (by decide)⟩, next_of (by decide)⟩

/-- An event that qualifies, rising and falling, and one that does not. -/
theorem test_witness_PinEventLatchesAndQualifies :
    State.reset.pin.pins[(3 : Fin nPins)].ibe = false ∧
    ((edgeS 3 true false true false).pin.pins[(3 : Fin nPins)].ibe = true ∧
      edgeInterrupts (edgeS 3 true false true false) 3 true) ∧
    ((edgeS 31 false true true true).pin.pins[(31 : Fin nPins)].ibe = true ∧
      edgeInterrupts (edgeS 31 false true true true) 31 false) ∧
    ((edgeS 3 true false false false).pin.pins[(3 : Fin nPins)].ibe = true ∧
      ¬ edgeInterrupts (edgeS 3 true false false false) 3 true) := by
  refine ⟨by decide, ⟨by decide, ?_⟩, ⟨by decide, ?_⟩, by decide, ?_⟩ <;> rw [edgeInterrupts_iff] <;> decide

/-- Levels 2 and 1, index 144: the boundaries of the three clauses. -/
theorem test_witness_PinEventChecksLevelThenIndex :
    (asking State.reset (.pinEv 200 2)).params.wf = true ∧
    (asking State.reset (.pinEv 200 2)).pending = .pinEv 200 2 :: [] ∧ 1 < 2 ∧
    (asking State.reset (.pinEv 144 1)).pending = .pinEv 144 1 :: [] ∧ nPins ≤ 144 := by decide

theorem test_witness_wf : State.reset.params.wf = true ∧ ({ defaultParams with statPf := 23 } : Params).wf = false := by
  decide

/-- `DataReadPopsTheOldestByte`: empty, more than one byte, and the last byte under both parameter values. -/
theorem test_witness_DataReadPopsTheOldestByte :
    State.reset.uart.rxLen = 0 ∧ 1 < (received 0x00040000 [1, 2] false).uart.rxLen ∧
    (drainS.uart.rxLen = 1 ∧ drainS.params.uartIrqUpdateOnDrain = false) ∧
    (drainS'.uart.rxLen = 1 ∧ drainS'.params.uartIrqUpdateOnDrain = true) := by decide

theorem test_witness_DataWriteTransmitsTheLowByte :
    bit (uartS fun u => { u with ctrl := 0x00080000 }).uart.ctrl State.reset.params.ctrlTe = true ∧
    bit State.reset.uart.ctrl State.reset.params.ctrlTe = false := by decide

/-- `ReceiveQueuesWhatFits`: RE clear; RE set with nothing queued, and with one byte of two fitting in a FIFO of 15. -/
theorem test_witness_ReceiveQueuesWhatFits :
    (State.reset.uart.rxLen ≤ rxCap ∧ bit State.reset.uart.ctrl State.reset.params.ctrlRe = false) ∧
    ((received 0x00040000 [] false).uart.rxLen + min ([] : List Byte).length (rxCap - 0) = 0 ∧
      bit (received 0x00040000 [] false).uart.ctrl defaultParams.ctrlRe = true) ∧
    ((received 0x00040000 (List.replicate 15 7) false).uart.rxLen = 15 ∧ 15 ≤ rxCap ∧
      0 < 15 + min [0xA#8, 0xB#8].length (rxCap - 15)) := by decide

/-- `ReceiveFifoRefinesAQueue` and `AcceptedBytesUseUpTheCapacity`. -/
theorem test_witness_ReceiveFifo :
    (received 0x00040000 (List.replicate 15 7) false).uart.rxLen ≤ rxCap ∧
    bit (received 0x00040000 (List.replicate 15 7) false).uart.ctrl defaultParams.ctrlRe = true ∧
    (exec .uartEvCanReceive (received 0x00040000 (List.replicate 15 7) false) =
      .next { received 0x00040000 (List.replicate 15 7) false with reply := .count 1 }) ∧
    (∃ t, exec (.uartEvReceive [0xA, 0xB]) (received 0x00040000 (List.replicate 15 7) false) = .next t ∧
      t.reply = .count 1) ∧
    (∃ t, exec .uartRdData drainS = .next t ∧ fifoContents t.uart = []) ∧
    (∃ t, exec .uartReset drainS = .next t ∧ fifoContents t.uart = []) :=
  ⟨by decide, by decide, rfl, next_of (by decide), next_of (by decide), next_of (by decide)⟩

/-- `ReceivedBytesAreReadInOrder` with a full FIFO and its last byte. -/
theorem test_witness_ReceivedBytesAreReadInOrder :
    15 < (List.replicate 16 (0x41 : Byte)).length ∧ (List.replicate 16 (0x41 : Byte)).length ≤ rxCap ∧
    State.reset.params.wf = true ∧ (received 0x00040000 [] false).uart.rxLen = 0 ∧
    bit (received 0x00040000 [] false).uart.ctrl (received 0x00040000 [] false).params.ctrlRe = true ∧
    ({ received 0x00040000 [] false with
        pending := .rxEv (List.replicate 16 0x41) :: List.replicate (15 + 1) (.mmioR .uart 0x1C 4) } : State).pending =
      .rxEv (List.replicate 16 0x41) :: List.replicate (15 + 1) (.mmioR .uart 0x1C 4) := by decide

/-- `DecodeOfEncodeIsTheOperation` and `EncodeOfDecodeIsTheRequest`, at the ends of the blocks and windows. -/
theorem test_witness_round_trip :
    defaultParams.wf = true ∧ (Instr.pinRdCfg 143 3 .b1).wf defaultParams = true ∧
    (Instr.pinWrOut 0 .b4 1).wf defaultParams = true ∧ (Instr.pinRdInvalid 0x3FFF .b1).wf defaultParams = true ∧
    (Instr.uartWrInvalid 0x30 1).wf defaultParams = true ∧ (Instr.pinEvInvalidPin 144 true).wf defaultParams = true ∧
    decode defaultParams (.mmioR .uart 0x3FFC 4) = .instr (.uartRdInvalid 0x3FFC) := by decide

theorem test_witness_StepRunsTheDecodedOperation :
    (asking State.reset .rxQ).params.wf = true ∧ (asking State.reset .rxQ).pending = .rxQ :: [] ∧
    decode (asking State.reset .rxQ).params .rxQ = .instr .uartEvCanReceive ∧ State.reset.pending = [] := by decide

/-- `WrongWidthOnlyLogs`: the widths next to the accepted ones, at the last offsets of the windows. -/
theorem test_witness_WrongWidthOnlyLogs :
    State.reset.params.wf = true ∧ 3 ∉ [1, 2, 4] ∧ 0 ∉ [1, 2, 4] ∧ 5 ∉ [1, 2, 4] ∧
    (0x3FFC : Word).toNat % 4 = 0 ∧ 2 ≠ 4 ∧
    (asking State.reset (.mmioR .pin 0x3FFF 3)).pending = .mmioR .pin 0x3FFF 3 :: [] := by decide

/-- `MisalignedAccessIsRefused` for widths 2 and 4. -/
theorem test_witness_MisalignedAccessIsRefused :
    2 ∈ [1, 2, 4] ∧ (0x1301 : Word).toNat % 2 ≠ 0 ∧ (0x012 : Word).toNat % 4 ≠ 0 ∧ (0x1E : Word).toNat % 4 ≠ 0 ∧
    (asking State.reset (.mmioW .pin 0x1301 2 1)).pending = .mmioW .pin 0x1301 2 1 :: [] := by decide

/-- Two windows on the bus, at addresses a test can compute with. -/
def busParams : Params := { defaultParams with pinBase := 0x1000, uartBase := 0x8000 }

/-- `OffsetsThatSelectNothingAreInvalid`: an offset between two registers, the first and the last offset past each end, and
the ends of the pin window on the bus. -/
theorem test_witness_OffsetsThatSelectNothingAreInvalid :
    State.reset.params.wf = true ∧ decodePin State.reset.params (0x00C : Word).toNat = none ∧
    (0x00C : Word).toNat % Width.b4.bytes = 0 ∧
    State.reset.params.pinWindow ≤ (0x4000 : Word).toNat ∧ (0x4000 : Word).toNat % Width.b4.bytes = 0 ∧
    State.reset.params.pinWindow ≤ (0xFFFFFFFF : Word).toNat ∧ (0xFFFFFFFF : Word).toNat % Width.b1.bytes = 0 ∧
    4 * uartNSlots ≤ (0x30 : Word).toNat ∧ (0x30 : Word).toNat % 4 = 0 ∧
    4 * uartNSlots ≤ (0xFFFFFFFC : Word).toNat ∧ (0xFFFFFFFC : Word).toNat % 4 = 0 ∧
    (asking State.reset (.mmioR .uart 0x30 4)).pending = .mmioR .uart 0x30 4 :: [] ∧
    busParams.wf = true ∧ busParams.busOffset .pin 0x1000 = some 0 ∧ busParams.busOffset .pin 0x4FFF = some 0x3FFF ∧
    busParams.busOffset .uart 0x8018 = some 0x18 := by decide

/-- Rule R61: just outside the window no access reaches the controller. -/
theorem test_busOffset_outside :
    busParams.busOffset .pin 0x0FFF = none ∧ busParams.busOffset .pin 0x5000 = none ∧
    busParams.busOffset .uart 0x1000 = none := by decide

/-- Rule R88: an offset past the window has an outcome, `INVALID_ADDRESS` with code 1. -/
theorem test_read_past_window :
    step (asking State.reset (.mmioR .pin 0x4000 4)) =
      .next { State.reset with reply := .word 0, log := [⟨.pin, .invalidAddress, .access .read 0x4000 4⟩] } := rfl

/-- The codes of rule R221's table. -/
theorem test_diag_codes :
    [DiagKind.invalidAddress, .invalidPin, .invalidWidth, .readOnly].map DiagKind.code = [1, 2, 3, 4] := by decide

/-- `EveryDutifulRequestCompletes`, each kind of request. -/
theorem test_witness_EveryDutifulRequestCompletes :
    State.reset.params.wf = true ∧ (asking State.reset (.reset .pin)).pending = .reset .pin :: [] ∧
    (4 ∈ [1, 2, 4] → (0x3FFC : Word).toNat % 4 = 0) ∧ (7 ∈ [1, 2, 4] → (0x3FFF : Word).toNat % 7 = 0) ∧
    (0xFFFFFFFC : Word).toNat % 4 = 0 ∧ 1 ≤ 1 := by decide

/-- `StepKeepsTheInvariant` and `ReadsOtherThanDataChangeNothing`: a state that meets the invariant, asking for a STAT
read. -/
theorem test_witness_StepKeepsTheInvariant :
    (asking drainS (.mmioR .uart 0x14 4)).Inv ∧
    (∃ t, step (asking drainS (.mmioR .uart 0x14 4)) = .next t ∧ t.reply = .word 0x00E00000) ∧
    ¬ (asking drainS (.mmioR .uart 0x14 4)).performs .uartRdData := by
  refine ⟨?_, next_of (by decide), ?_⟩
  · refine inv_of_pin_reset (by decide) rfl ?_ (statOthers_of_lt (by decide)) ?_
    · unfold StatFlags; decide
    · unfold UartLineFollows; decide
  · rintro ⟨r, rest, hp, hd⟩
    cases hp
    exact absurd hd (by decide)

/-- TIE set, the FIFO empty, the line high, a capacity query pending. -/
def tieS : State := asking (received 0x00800000 [] true) .rxQ

/-- `TransmitInterruptHoldsTheLine`: a CTRL write that sets TIE, and a step with TIE set before it. -/
theorem test_witness_TransmitInterruptHoldsTheLine :
    ((asking drainS (.mmioW .uart 0x18 4 0x00800000)).Inv ∧
      (asking drainS (.mmioW .uart 0x18 4 0x00800000)).performs (.uartWrCtrl 0x00800000) ∧
      ∃ t, step (asking drainS (.mmioW .uart 0x18 4 0x00800000)) = .next t ∧
        bit t.uart.ctrl t.params.ctrlTie = true) ∧
    (tieS.Inv ∧ bit tieS.uart.ctrl tieS.params.ctrlTie = true ∧ ∃ t, step tieS = .next t ∧ t.pending = []) := by
  refine ⟨⟨?_, asking_performs (by decide), next_of (by decide)⟩, ?_, by decide, next_of (by decide)⟩
  all_goals refine inv_of_pin_reset (by decide) rfl ?_ (statOthers_of_lt (by decide)) ?_
  · unfold StatFlags; decide
  · unfold UartLineFollows; decide
  · unfold StatFlags; decide
  · unfold UartLineFollows; decide

theorem test_witness_StepKeepsTheParameters :
    ∃ t, step (asking State.reset (.reset .uart)) = .next t ∧ t.pending = [] := next_of (by decide)

/-- `StatusBitsRiseOnEdgesAndFallOnClears` and `PinLineChangesOnlyByItsRules`: a rise on the last bit, a fall by
write-1-to-clear, a fall by reset. -/
theorem test_witness_status_and_line :
    (bit (edgeS 31 true false true false).pin.edgeStatus 31 = false ∧ (edgeS 31 true false true false).pin.irq = false ∧
      ∃ t, step (asking (edgeS 31 true false true false) (.pinEv 31 1)) = .next t ∧
        bit t.pin.edgeStatus 31 = true ∧ t.pin.irq = true) ∧
    (∃ t, step (asking (pinS fun c => { c with edgeStatus := 1, irq := true }) (.mmioW .pin 0x010 4 1)) = .next t ∧
      bit t.pin.edgeStatus 0 = false ∧ t.pin.irq = false) ∧
    (∃ t, step (asking (pinS fun c => { c with edgeStatus := 1, irq := true }) (.reset .pin)) = .next t ∧
      bit t.pin.edgeStatus 0 = false ∧ t.pin.irq = false) :=
  ⟨⟨by decide, by decide, next_of (by decide)⟩, next_of (by decide), next_of (by decide)⟩

/-- `UartLineChangesOnlyByItsRules`: each of the four. -/
theorem test_witness_UartLineChangesOnlyByItsRules :
    (∃ t, step (asking State.reset (.mmioW .uart 0x18 4 0x00800000)) = .next t ∧ t.uart.irq ≠ State.reset.uart.irq) ∧
    (∃ t, step (asking (received 0x00240000 [] false) (.rxEv [0x41])) = .next t ∧ t.uart.irq ≠ false) ∧
    (∃ t, step (asking drainS' (.mmioR .uart 0x1C 4)) = .next t ∧ t.uart.irq ≠ drainS'.uart.irq) ∧
    (∃ t, step (asking drainS (.reset .uart)) = .next t ∧ t.uart.irq ≠ drainS.uart.irq) :=
  ⟨next_of (by decide), next_of (by decide), next_of (by decide), next_of (by decide)⟩

/-- `InputLevelsChangeOnlyByEvents`: an event and the reset. -/
theorem test_witness_InputLevelsChangeOnlyByEvents :
    (∃ t, step (asking (edgeS 143 false false false false) (.pinEv 143 1)) = .next t ∧
      (t.pin.slot 143).inputLevel ≠ ((edgeS 143 false false false false).pin.slot 143).inputLevel) ∧
    (∃ t, step (asking (edgeS 0 false false false true) (.reset .pin)) = .next t ∧
      (t.pin.slot 0).inputLevel ≠ ((edgeS 0 false false false true).pin.slot 0).inputLevel) :=
  ⟨next_of (by decide), next_of (by decide)⟩

/-- `ControllersDoNotTouchEachOther` and `ControllersDoNotSeeEachOther`: a request for each controller, in two states that
differ in the other one. -/
theorem test_witness_controllers :
    (requestDev (.pinEv 3 1) = .pin ∧ (∃ t, step (asking State.reset (.pinEv 3 1)) = .next t ∧ t.pending = []) ∧
      drainS.pin = State.reset.pin ∧ drainS.params = State.reset.params) ∧
    (requestDev .rxQ = .uart ∧ (∃ t, step (asking State.reset .rxQ) = .next t ∧ t.pending = []) ∧
      (edgeS 3 true true true true).uart = State.reset.uart ∧
      (edgeS 3 true true true true).params = State.reset.params) :=
  ⟨⟨rfl, next_of (by decide), rfl, rfl⟩, rfl, next_of (by decide), rfl, rfl⟩

/-- `LogAndTraceOnlyGrow`, `DiagnosticsChangeNoState`: a record of each code. -/
theorem test_witness_DiagnosticsChangeNoState :
    (∃ t, step (asking State.reset (.mmioR .uart 0x40 4)) = .next t ∧ t.log.map (·.kind.code) = [1]) ∧
    (∃ t, step (asking State.reset (.pinEv 144 1)) = .next t ∧ t.log.map (·.kind.code) = [2]) ∧
    (∃ t, step (asking State.reset (.mmioR .uart 0x1C 1)) = .next t ∧ t.log.map (·.kind.code) = [3]) ∧
    (∃ t, step (asking State.reset (.mmioW .pin 0x158F 1 1)) = .next t ∧ t.log.map (·.kind.code) = [4]) ∧
    (asking State.reset (.mmioW .pin 0x158F 1 1)).performs (.pinWrIn 143 .b1 1) ∧ State.reset.log = [] :=
  ⟨next_of (by decide), next_of (by decide), next_of (by decide), next_of (by decide), asking_performs (by decide), rfl⟩

theorem test_witness_PinsAndBytesLeaveOnlyOnTheirWrites :
    (∃ t, step (asking (pinS fun c => c.setSlot 143 (pinSet 0x00200000 false)) (.mmioW .pin 0x138F 1 0xFF)) = .next t ∧
      t.trace = State.reset.trace ++ [.drivePin 143 true]) ∧
    (∃ t, step (asking (uartS fun u => { u with ctrl := 0x00080000 }) (.mmioW .uart 0x1C 4 0x1FF)) = .next t ∧
      t.trace = State.reset.trace ++ [.transmitByte 0xFF]) :=
  ⟨next_of (by decide), next_of (by decide)⟩

theorem test_witness_ResetIsIdempotent :
    (∃ t, exec .pinReset (edgeS 3 true false true true) = .next t ∧ t.pin.irqEnable = 0) ∧
    (∃ t, exec .uartReset drainS = .next t ∧ t.uart.rxLen = 0) := ⟨next_of (by decide), next_of (by decide)⟩

theorem edgeS_prevIsLatched (p : Fin nPins) (r f i level : Bool) : PrevIsLatched (edgeS p r f i level) := by
  intro q
  show ((PinState.reset.setSlot p (pinSet 0x00080000 level)).slot q).prevInputLevel =
    ((PinState.reset.setSlot p (pinSet 0x00080000 level)).slot q).inputLevel
  rw [setSlot_slot]
  split
  · rfl
  · rw [reset_slot]; rfl

/-- `EdgeStateMachineFollowsTheLevels`, from either latched level: a repeated level, a rise and a fall. -/
theorem test_witness_EdgeStateMachineFollowsTheLevels :
    (PrevIsLatched (edgeS 31 true true true false) ∧ (edgeS 31 true true true false).params.edgeBit 31 = some 31 ∧
      ((edgeS 31 true true true false).pin.slot 31).ibe = true ∧
      ((edgeS 31 true true true false).pin.slot 31).inputLevel = false ∧
      bit (edgeS 31 true true true false).pin.irqEnable 31 = true) ∧
    (PrevIsLatched (edgeS 0 true true true true) ∧ (edgeS 0 true true true true).params.edgeBit 0 = some 0 ∧
      ((edgeS 0 true true true true).pin.slot 0).ibe = true ∧
      ((edgeS 0 true true true true).pin.slot 0).inputLevel = true ∧
      bit (edgeS 0 true true true true).pin.irqEnable 0 = true) :=
  ⟨⟨edgeS_prevIsLatched _ _ _ _ _, by decide, by decide, by decide, by decide⟩,
    edgeS_prevIsLatched _ _ _ _ _, by decide, by decide, by decide, by decide⟩

/-- The other clauses of `EdgeStateMachineFollowsTheLevels`: a write that names the bit, the interrupt disabled, IBE clear. -/
theorem test_witness_EdgeStateMachine_other_clauses :
    bit (lowBytes .b1 0x80) 7 = true ∧ bit (lowBytes .b4 0x80000000) 31 = true ∧
    (((edgeS 3 true true false false).pin.slot 3).ibe = true ∧
      bit (edgeS 3 true true false false).pin.irqEnable 3 = false) ∧
    (State.reset.pin.slot 3).ibe = false ∧ State.reset.params.edgeBit 3 = some 3 := by decide

/-- `PinLineChangesOnlyByItsRules`: the step that performs each of its three operations. -/
theorem test_witness_PinLine_performs :
    (asking (edgeS 31 true false true false) (.pinEv 31 1)).performs (.pinEvSetInput 31 true) ∧
    (asking (pinS fun c => { c with edgeStatus := 1, irq := true }) (.mmioW .pin 0x010 4 1)).performs
      (.pinWrEdgeStatus .b4 1) ∧
    State.reset.params.pinIrqLowerOnClear = true ∧
    (asking (pinS fun c => { c with edgeStatus := 1, irq := true }) (.reset .pin)).performs .pinReset :=
  ⟨asking_performs (by decide), asking_performs (by decide), by decide, asking_performs (by decide)⟩

/-- `EdgesSeenWhileDisabledAreLost`: vectors P74 and P75. -/
theorem test_witness_EdgesSeenWhileDisabledAreLost :
    bitAt (edgeS 3 true false false false).pin.irqEnable ((edgeS 3 true false false false).params.edgeBit 3) = false ∧
    ((edgeS 3 true false false false).pin.slot 3).ibe = true ∧
    (∃ t, exec (.pinEvSetInput 3 true) (edgeS 3 true false false false) = .next t ∧ t.pin.edgeStatus = 0) ∧
    (∃ u, exec (.pinWrIrqEnable .b4 8) (edgeS 3 true false false true) = .next u ∧ u.pin.irqEnable = 8) ∧
    (∃ r, exec (.pinEvSetInput 3 true) (edgeS 3 true false true true) = .next r ∧ r.pin.edgeStatus = 0) :=
  ⟨by decide, by decide, next_of (by decide), next_of (by decide), next_of (by decide)⟩

/-- `PinsPastTheStatusWordNeverInterrupt` at its first pin, 32. -/
theorem test_witness_PinsPastTheStatusWord :
    (edgeS 32 true true true false).params.edgeBitTable = defaultEdgeBitTable ∧ 32 ≤ (32 : Fin nPins).val ∧
    ∃ t, exec (.pinEvSetInput 32 true) { edgeS 32 true true true false with
        pin := { (edgeS 32 true true true false).pin with irqEnable := 0xFFFFFFFF, risingEnable := 0xFFFFFFFF } } =
      .next t ∧ (t.pin.slot 32).inputLevel = true :=
  ⟨rfl, by decide, next_of (by decide)⟩

/-- `DrainedFifoLeavesTheLineHigh`, under both parameter values. -/
theorem test_witness_DrainedFifoLeavesTheLineHigh :
    (drainS.Inv ∧ drainS.uart.rxLen = 1 ∧ bit drainS.uart.ctrl drainS.params.ctrlRie = true ∧
      bit drainS.uart.ctrl drainS.params.ctrlTie = false ∧ drainS.params.uartIrqUpdateOnDrain = false ∧
      ∃ t, exec .uartRdData drainS = .next t ∧ t.uart.irq = true) ∧
    (drainS'.Inv ∧ drainS'.uart.rxLen = 1 ∧ bit drainS'.uart.ctrl drainS'.params.ctrlRie = true ∧
      bit drainS'.uart.ctrl drainS'.params.ctrlTie = false ∧ drainS'.params.uartIrqUpdateOnDrain = true ∧
      ∃ t, exec .uartRdData drainS' = .next t ∧ t.uart.irq = false) :=
  ⟨⟨drainS_inv, by decide, by decide, by decide, by decide, next_of (by decide)⟩,
    drainS'_inv, by decide, by decide, by decide, by decide, next_of (by decide)⟩

end Sys2Proof.Tests
end

section
/-! Proofs for the state family: when a status bit rises or falls (rule R52), and when the two interrupt lines change
(rules R36, R46). An operation's effect on them is said once per operation that has one; a step adds only the request
taken from the queue. -/

namespace Sys2Proof.Machine

/-! ### From a step to the operation it performs -/

/-- A step at which an operation is next runs that operation. -/
theorem exec_of_performs {s t : State} {i : Instr} (h : step s = .next t) (hi : s.performs i) :
    ∃ rest, exec i { s with pending := rest } = .next t := by
  obtain ⟨r, rest, hp, hd⟩ := hi
  rcases step_cases h with ⟨hnil, -⟩ | ⟨r', rest', hp', -, hdone⟩
  · simp [hp] at hnil
  · obtain ⟨rfl, rfl⟩ : r' = r ∧ rest' = rest := by simpa [hp'] using hp
    rcases hdone with ⟨i', hd', he⟩ | ⟨dev, dir, off, w, hd', -⟩
    · obtain rfl : i' = i := by simpa [hd'] using hd
      exact ⟨rest', he⟩
    · simp [hd'] at hd

/-- A step runs the operation it performs, or leaves both controllers and the exit trace alone. -/
theorem step_runs_or_keeps {s t : State} (h : step s = .next t) :
    (∃ i rest, s.performs i ∧ exec i { s with pending := rest } = .next t) ∨
    (t.pin = s.pin ∧ t.uart = s.uart ∧ t.trace = s.trace) := by
  rcases step_cases h with ⟨-, rfl⟩ | ⟨r, rest, hp, -, ⟨i, hd, he⟩ | ⟨dev, dir, off, w, -, rfl⟩⟩
  · exact .inr ⟨rfl, rfl, rfl⟩
  · exact .inl ⟨i, rest, ⟨r, rest, hp, hd⟩, he⟩
  · exact .inr ⟨rfl, rfl, rfl⟩

/-! ### The operations that touch the status register or the pin line -/

/-- Rule R140 with the input buffer off: the event is ignored. -/
theorem exec_pinEvSetInput_off {s : State} {p : Fin nPins} {level : Bool} (hb : (s.pin.slot p).ibe = false) :
    exec (.pinEvSetInput p level) s = .next { s with reply := .none } := by
  simp [exec, execPinEvSetInput, hb, State.answer]

/-- Rules R140 to R142: an interrupting event latches the level, sets the pin's status bit and asserts the line. -/
theorem exec_pinEvSetInput_interrupts {s : State} {p : Fin nPins} {level : Bool} (hb : (s.pin.slot p).ibe = true)
    (he : edgeInterrupts s p level) :
    exec (.pinEvSetInput p level) s = .next { s with
      pin := { s.pin.setSlot p { s.pin.slot p with inputLevel := level, prevInputLevel := level } with
        edgeStatus := s.pin.edgeStatus ||| maskAt (s.params.edgeBit p), irq := true }
      trace := s.trace ++ [.setIrq .pin true], reply := .none } := by
  rw [edgeInterrupts_iff] at he
  simp only [exec, execPinEvSetInput, hb, he]
  rfl

/-- Rule R140: an event that does not interrupt only latches the level. -/
theorem exec_pinEvSetInput_latches {s : State} {p : Fin nPins} {level : Bool} (hb : (s.pin.slot p).ibe = true)
    (he : ¬ edgeInterrupts s p level) :
    exec (.pinEvSetInput p level) s = .next { s with
      pin := s.pin.setSlot p { s.pin.slot p with inputLevel := level, prevInputLevel := level }, reply := .none } := by
  rw [edgeInterrupts_iff, Bool.not_eq_true] at he
  simp only [exec, execPinEvSetInput, hb, he]
  rfl

/-- Rules R113 and R143. -/
theorem exec_pinWrEdgeStatus_eq (w : Width) (data : Word) (s : State) :
    exec (.pinWrEdgeStatus w data) s =
      if s.params.pinIrqLowerOnClear = true ∧ s.pin.edgeStatus &&& ~~~(lowBytes w data) = 0 ∧ s.pin.irq = true then
        .next { s with
          pin := { s.pin with edgeStatus := s.pin.edgeStatus &&& ~~~(lowBytes w data), irq := false }
          trace := s.trace ++ [.setIrq .pin false], reply := .none }
      else .next { s with
          pin := { s.pin with edgeStatus := s.pin.edgeStatus &&& ~~~(lowBytes w data) }, reply := .none } := by
  simp only [exec, execPinWrEdgeStatus, pinIrqAfterClear_eq]
  split <;> simp_all [State.mapPin, State.answer]

/-- Rule R146. -/
theorem exec_pinReset_eq (s : State) :
    exec .pinReset s = .next { s with
      pin := PinState.reset
      trace := if s.pin.irq then s.trace ++ [.setIrq .pin false] else s.trace, reply := .none } := by
  simp only [exec, execPinReset]
  split <;> rfl

/-- Neither the status register nor the pin line changes outside an interrupting event, a write-1-to-clear and the pin
reset. -/
theorem exec_status_and_line_cases {i : Instr} {s t : State} (h : exec i s = .next t) :
    (t.pin.edgeStatus = s.pin.edgeStatus ∧ t.pin.irq = s.pin.irq) ∨
    (∃ p level, i = .pinEvSetInput p level ∧ (s.pin.slot p).ibe = true ∧ edgeInterrupts s p level) ∨
    (∃ w data, i = .pinWrEdgeStatus w data) ∨ i = .pinReset := by
  cases i with
  | pinEvSetInput p level =>
    cases hb : (s.pin.slot p).ibe
    · rw [exec_pinEvSetInput_off hb] at h
      cases h
      exact .inl ⟨rfl, rfl⟩
    · by_cases he : edgeInterrupts s p level
      · exact .inr (.inl ⟨p, level, rfl, hb, he⟩)
      · rw [exec_pinEvSetInput_latches hb he] at h
        cases h
        exact .inl ⟨rfl, rfl⟩
  | pinWrEdgeStatus w data => exact .inr (.inr (.inl ⟨w, data, rfl⟩))
  | pinReset => exact .inr (.inr (.inr rfl))
  | pinWrFilterEnable w data =>
    simp only [exec, execPinWrFilterEnable] at h
    split at h <;> cases h <;> exact .inl ⟨rfl, rfl⟩
  | pinWrOut p w data =>
    simp only [exec, execPinWrOut] at h
    split at h <;> cases h <;> exact .inl ⟨rfl, rfl⟩
  | uartRdData | uartWrCtrl | uartWrData | uartEvReceive | uartReset =>
    have hpin := (exec_other_controller h).2 rfl
    exact .inl ⟨by rw [hpin], by rw [hpin]⟩
  | _ => cases h; exact .inl ⟨rfl, rfl⟩

/-! ### The status register (rule R52) -/

/-- A write-1-to-clear leaves of the status register the bits the written value does not name. -/
theorem edgeStatus_of_exec_pinWrEdgeStatus {w : Width} {data : Word} {s t : State}
    (h : exec (.pinWrEdgeStatus w data) s = .next t) :
    t.pin.edgeStatus = s.pin.edgeStatus &&& ~~~(lowBytes w data) := by
  rw [exec_pinWrEdgeStatus_eq] at h
  split at h <;> cases h <;> rfl

/-- Only the mask of the bit's own position sets a bit. -/
theorem eq_some_of_bit_maskAt {o : Option Nat} {b : Nat} (h : bit (maskAt o) b = true) : o = some b := by
  cases o with
  | none => simp [maskAt] at h
  | some i => simp_all [maskAt, bit_mask]

/-- The operation that raises a status bit is an interrupting event on a pin that has the bit. -/
theorem exec_raises_status_bit {i : Instr} {s t : State} {b : Nat} (h : exec i s = .next t)
    (h0 : bit s.pin.edgeStatus b = false) (h1 : bit t.pin.edgeStatus b = true) :
    ∃ p level, i = .pinEvSetInput p level ∧ s.params.edgeBit p = some b ∧ (s.pin.slot p).ibe = true ∧
      edgeInterrupts s p level := by
  rcases exec_status_and_line_cases h with ⟨hs, -⟩ | ⟨p, level, rfl, hb, he⟩ | ⟨w, data, rfl⟩ | rfl
  · simp [hs, h0] at h1
  · rw [exec_pinEvSetInput_interrupts hb he] at h
    cases h
    have hm : bit (maskAt (s.params.edgeBit p)) b = true := by simpa [h0] using h1
    exact ⟨p, level, rfl, eq_some_of_bit_maskAt hm, hb, he⟩
  · simp [edgeStatus_of_exec_pinWrEdgeStatus h, h0] at h1
  · rw [exec_pinReset_eq] at h
    cases h
    simp [PinState.reset] at h1

/-- The operation that clears a status bit is a write-1-to-clear that names it, or the pin reset. -/
theorem exec_clears_status_bit {i : Instr} {s t : State} {b : Nat} (h : exec i s = .next t)
    (h1 : bit s.pin.edgeStatus b = true) (h0 : bit t.pin.edgeStatus b = false) :
    (∃ w data, i = .pinWrEdgeStatus w data ∧ bit (lowBytes w data) b = true) ∨ i = .pinReset := by
  rcases exec_status_and_line_cases h with ⟨hs, -⟩ | ⟨p, level, rfl, hb, he⟩ | ⟨w, data, rfl⟩ | rfl
  · simp [hs, h1] at h0
  · rw [exec_pinEvSetInput_interrupts hb he] at h
    cases h
    simp [h1] at h0
  · refine .inl ⟨w, data, rfl, ?_⟩
    simpa [edgeStatus_of_exec_pinWrEdgeStatus h, h1, bit_lt h1] using h0
  · exact .inr rfl

/-- Settles O45: the operation behind the step is the one that can raise, or clear, a status bit. -/
theorem statusBitsRiseOnEdgesAndFallOnClears : Obligations.StatusBitsRiseOnEdgesAndFallOnClears := by
  intro s t b h
  rcases step_runs_or_keeps h with ⟨i, rest, hi, he⟩ | ⟨hpin, -, -⟩
  · refine ⟨fun h0 h1 => ?_, fun h1 h0 => ?_⟩
    · obtain ⟨p, level, rfl, hrest⟩ := exec_raises_status_bit he h0 h1
      exact ⟨p, level, hi, hrest⟩
    · rcases exec_clears_status_bit he h1 h0 with ⟨w, data, rfl, hbit⟩ | rfl
      · exact .inl ⟨w, data, hi, hbit⟩
      · exact .inr hi
  · rw [hpin]
    exact ⟨fun h0 h1 => by simp [h0] at h1, fun h1 h0 => by simp [h0] at h1⟩

/-! ### The pin line (rule R36) -/

/-- Under `PIN_IRQ_LOWER_ON_CLEAR`, a write-1-to-clear that leaves no status bit leaves the line low. -/
theorem pinIrq_of_exec_pinWrEdgeStatus {w : Width} {data : Word} {s t : State}
    (h : exec (.pinWrEdgeStatus w data) s = .next t) (hl : s.params.pinIrqLowerOnClear = true)
    (h0 : t.pin.edgeStatus = 0) : t.pin.irq = false := by
  rw [edgeStatus_of_exec_pinWrEdgeStatus h] at h0
  rw [exec_pinWrEdgeStatus_eq] at h
  split at h <;> cases h
  · rfl
  · simp_all

/-- An operation that changes the pin line is one of rule R36's three, and gives the new level to the line. -/
theorem exec_changes_pin_line {i : Instr} {s t : State} (h : exec i s = .next t) (hne : t.pin.irq ≠ s.pin.irq) :
    t.trace = s.trace ++ [.setIrq .pin t.pin.irq] ∧
    ((∃ p level, i = .pinEvSetInput p level ∧ edgeInterrupts s p level ∧ t.pin.irq = true) ∨
     (∃ w data, i = .pinWrEdgeStatus w data ∧ s.params.pinIrqLowerOnClear = true ∧ t.pin.edgeStatus = 0) ∨
     i = .pinReset) := by
  rcases exec_status_and_line_cases h with ⟨-, hirq⟩ | ⟨p, level, rfl, hb, he⟩ | ⟨w, data, rfl⟩ | rfl
  · exact absurd hirq hne
  · rw [exec_pinEvSetInput_interrupts hb he] at h
    cases h
    exact ⟨rfl, .inl ⟨p, level, rfl, he, rfl⟩⟩
  · rw [exec_pinWrEdgeStatus_eq] at h
    split at h <;> cases h
    next hc =>
      obtain ⟨hl, hzero, -⟩ := hc
      exact ⟨rfl, .inr (.inl ⟨w, data, rfl, hl, hzero⟩)⟩
    · exact absurd rfl hne
  · rw [exec_pinReset_eq] at h
    cases h
    have hirq : s.pin.irq = true := by simpa [PinState.reset] using hne
    exact ⟨by simp [hirq, PinState.reset], .inr (.inr rfl)⟩

/-- Settles O46: each of the three operations by its equation, and every change is an operation's that
`exec_changes_pin_line` lists. -/
theorem pinLineChangesOnlyByItsRules : Obligations.PinLineChangesOnlyByItsRules := by
  intro s t h
  refine ⟨fun p level hi hb he => ?_, fun w data hi hl h0 => ?_, fun hi => ?_, fun hne => ?_⟩
  · obtain ⟨rest, hx⟩ := exec_of_performs h hi
    rw [exec_pinEvSetInput_interrupts (s := { s with pending := rest }) hb he] at hx
    cases hx
    rfl
  · obtain ⟨rest, hx⟩ := exec_of_performs h hi
    exact pinIrq_of_exec_pinWrEdgeStatus hx hl h0
  · obtain ⟨rest, hx⟩ := exec_of_performs h hi
    rw [exec_pinReset_eq] at hx
    cases hx
    rfl
  · rcases step_runs_or_keeps h with ⟨i, rest, hi, hx⟩ | ⟨hpin, -, -⟩
    · obtain ⟨htrace, hcause⟩ := exec_changes_pin_line hx hne
      refine ⟨htrace, ?_⟩
      rcases hcause with ⟨p, level, rfl, he⟩ | ⟨w, data, rfl, hc⟩ | rfl
      · exact .inl ⟨p, level, hi, he⟩
      · exact .inr (.inl ⟨w, data, hi, hc⟩)
      · exact .inr (.inr hi)
    · exact absurd (by rw [hpin]) hne

/-! ### The serial line (rule R46) -/

/-- The step from `s` to `t` ends in a recomputation of the serial line (rule R200), before which neither the line nor the
exit trace had changed. -/
def UartLineRecomputed (s t : State) : Prop :=
  ∃ u r, u.uart.irq = s.uart.irq ∧ u.trace = s.trace ∧ t = (uartIrqRecompute u).answer r

/-- A recomputed line is the interrupt condition, and the line is told of a change. -/
theorem UartLineRecomputed.line {s t : State} (h : UartLineRecomputed s t) (hne : t.uart.irq ≠ s.uart.irq) :
    t.trace = s.trace ++ [.setIrq .uart t.uart.irq] ∧ t.uart.irq = uartIrqCondition t.params t.uart := by
  obtain ⟨u, r, hirq, htrace, rfl⟩ := h
  rw [← hirq] at hne
  simp only [answer_uart, answer_trace, answer_params, uartIrqRecompute_uart] at hne ⊢
  exact ⟨by simp [uartIrqRecompute_eq, hne, htrace], by simp⟩

/-- Rule R204. -/
theorem exec_uartReset_eq (s : State) :
    exec .uartReset s = .next { s with
      uart := { s.uart with
        plain := s.params.uartReset, stat := statReset s.params, ctrl := 0, rxHead := 0, rxLen := 0, irq := false }
      trace := if s.uart.irq then s.trace ++ [.setIrq .uart false] else s.trace, reply := .none } := by
  simp only [exec, execUartReset]
  split <;> rfl

/-- Rule R181. -/
theorem exec_uartWrCtrl_recomputes {v : Word} {s t : State} (h : exec (.uartWrCtrl v) s = .next t) :
    UartLineRecomputed s t := by
  cases h
  exact ⟨s.mapUart fun u => { u with ctrl := v }, .none, rfl, rfl, rfl⟩

/-- Rule R169: only the DATA read that empties the FIFO can recompute the line. -/
theorem exec_uartRdData_line_cases {s t : State} (h : exec .uartRdData s = .next t) :
    t.uart.irq = s.uart.irq ∨
    (s.params.uartIrqUpdateOnDrain = true ∧ s.uart.rxLen = 1 ∧ UartLineRecomputed s t) := by
  simp only [exec, execUartRdData] at h
  split at h
  · cases h
    exact .inl rfl
  · next hlen =>
    split at h
    · next hdrop =>
      have hone : s.uart.rxLen = 1 := by
        have : s.uart.rxLen - 1 = 0 := hdrop
        omega
      split at h <;> cases h
      · next hp => exact .inr ⟨hp, hone, _, _, by rfl, by rfl, rfl⟩
      · exact .inl rfl
    · cases h
      exact .inl rfl

/-- Rule R201: a receive event recomputes the line only when it leaves bytes in the FIFO. -/
theorem exec_uartEvReceive_line_cases {bytes : List Byte} {s t : State}
    (h : exec (.uartEvReceive bytes) s = .next t) :
    t.uart.irq = s.uart.irq ∨ (0 < t.uart.rxLen ∧ UartLineRecomputed s t) := by
  simp only [exec, execUartEvReceive] at h
  split at h
  · cases h
    exact .inl rfl
  · split at h <;> cases h
    · next hlen => exact .inr ⟨by simpa using hlen, _, _, by simp, by simp, rfl⟩
    · exact .inl (by simp)

/-- The serial line changes only in one of the recomputations or in the serial reset. -/
theorem exec_uart_line_cases {i : Instr} {s t : State} (h : exec i s = .next t) :
    t.uart.irq = s.uart.irq ∨ i = .uartReset ∨
    (UartLineRecomputed s t ∧
      ((∃ v, i = .uartWrCtrl v) ∨ (∃ bytes, i = .uartEvReceive bytes ∧ 0 < t.uart.rxLen) ∨
       (i = .uartRdData ∧ s.params.uartIrqUpdateOnDrain = true ∧ s.uart.rxLen = 1))) := by
  cases i with
  | uartReset => exact .inr (.inl rfl)
  | uartWrCtrl v => exact .inr (.inr ⟨exec_uartWrCtrl_recomputes h, .inl ⟨v, rfl⟩⟩)
  | uartEvReceive bytes =>
    rcases exec_uartEvReceive_line_cases h with hirq | ⟨hlen, hre⟩
    · exact .inl hirq
    · exact .inr (.inr ⟨hre, .inr (.inl ⟨bytes, rfl, hlen⟩)⟩)
  | uartRdData =>
    rcases exec_uartRdData_line_cases h with hirq | ⟨hp, hlen, hre⟩
    · exact .inl hirq
    · exact .inr (.inr ⟨hre, .inr (.inr ⟨rfl, hp, hlen⟩)⟩)
  | uartWrData v =>
    simp only [exec, execUartWrData] at h
    split at h <;> cases h <;> exact .inl rfl
  | pinWrFilterEnable | pinWrOut | pinEvSetInput | pinWrEdgeStatus | pinReset =>
    exact .inl (by rw [(exec_other_controller h).1 rfl])
  | _ => cases h; exact .inl rfl

/-- A line lowered by the serial reset is told so, and no interrupt condition holds. -/
theorem exec_uartReset_line_change {s t : State} (h : exec .uartReset s = .next t)
    (hne : t.uart.irq ≠ s.uart.irq) :
    t.trace = s.trace ++ [.setIrq .uart t.uart.irq] ∧ t.uart.irq = uartIrqCondition t.params t.uart := by
  rw [exec_uartReset_eq] at h
  cases h
  have hirq : s.uart.irq = true := by simpa using hne
  exact ⟨by simp [hirq], by simp [uartIrqCondition]⟩

/-- Settles O47: every change is a recomputation or the reset, and the operation behind it is the one the step performs. -/
theorem uartLineChangesOnlyByItsRules : Obligations.UartLineChangesOnlyByItsRules := by
  intro s t h
  refine ⟨fun hi => ?_, fun hne => ?_⟩
  · obtain ⟨rest, hx⟩ := exec_of_performs h hi
    rw [exec_uartReset_eq] at hx
    cases hx
    rfl
  · rcases step_runs_or_keeps h with ⟨i, rest, hi, hx⟩ | ⟨-, huart, -⟩
    · rcases exec_uart_line_cases hx with hirq | rfl | ⟨hre, hcause⟩
      · exact absurd hirq hne
      · obtain ⟨htrace, hcond⟩ := exec_uartReset_line_change hx hne
        exact ⟨htrace, hcond, .inr (.inr (.inr hi))⟩
      · obtain ⟨htrace, hcond⟩ := hre.line hne
        refine ⟨htrace, hcond, ?_⟩
        rcases hcause with ⟨v, rfl⟩ | ⟨bytes, rfl, hlen⟩ | ⟨rfl, hp, hlen⟩
        · exact .inl ⟨v, hi⟩
        · exact .inr (.inl ⟨bytes, hi, hlen⟩)
        · exact .inr (.inr (.inl ⟨hi, hp, hlen⟩))
    · exact absurd (by rw [huart]) hne

end Sys2Proof.Machine
end

section
/-! Proofs for the memory family: an access of a width the controller does not take (rules R62, R63), and a misaligned
one (rule R64). The common entry of each controller says which of the two checks comes first, once for both directions;
a step then logs the record or refuses. -/

namespace Sys2Proof

/-- Rule R62: the pin controller takes exactly the widths 1, 2 and 4. -/
theorem Width.exists_bytes_eq_iff {n : Nat} : (∃ w : Width, w.bytes = n) ↔ n ∈ [1, 2, 4] := by
  constructor
  · rintro ⟨w, rfl⟩
    cases w <;> decide
  · intro hn
    simp only [List.mem_cons, List.not_mem_nil, or_false] at hn
    rcases hn with rfl | rfl | rfl
    · exact ⟨.b1, rfl⟩
    · exact ⟨.b2, rfl⟩
    · exact ⟨.b4, rfl⟩

theorem Width.ofBytes_eq_none {n : Nat} (hn : n ∉ [1, 2, 4]) : Width.ofBytes n = none := by
  rw [Option.eq_none_iff_forall_ne_some]
  exact fun w hw => hn (Width.exists_bytes_eq_iff.mp ⟨w, Width.bytes_of_ofBytes hw⟩)

/-- Rule R62: the width check comes before the alignment and before decode. -/
theorem decodePinAccess_wrong_width {w : Nat} (hw : w ∉ [1, 2, 4]) (P : Params) (dir : Dir) (off : Word)
    (mk : Width → Option PinTarget → Instr) : decodePinAccess P dir off w mk = .invalidWidth .pin dir off w := by
  simp [decodePinAccess, Width.ofBytes_eq_none hw]

/-- Rule R64: past the width check, the alignment comes before decode. -/
theorem decodePinAccess_misaligned {off : Word} {w : Nat} (hw : w ∈ [1, 2, 4]) (ha : off.toNat % w ≠ 0) (P : Params)
    (dir : Dir) (mk : Width → Option PinTarget → Instr) : decodePinAccess P dir off w mk = .reject .misaligned := by
  obtain ⟨wd, rfl⟩ := Width.exists_bytes_eq_iff.mpr hw
  simp [decodePinAccess, aligned, ha]

/-- Rule R63: an aligned serial access has its width checked before decode. -/
theorem decodeUartAccess_wrong_width {off : Word} {w : Nat} (ha : off.toNat % 4 = 0) (hw : w ≠ 4) (dir : Dir)
    (mk : Option Slot → Instr) : decodeUartAccess dir off w mk = .invalidWidth .uart dir off w := by
  simp [decodeUartAccess, ha, hw]

/-- Rule R64: the serial controller checks the alignment first, whatever the width. -/
theorem decodeUartAccess_misaligned {off : Word} (ha : off.toNat % 4 ≠ 0) (dir : Dir) (w : Nat)
    (mk : Option Slot → Instr) : decodeUartAccess dir off w mk = .reject .misaligned := by
  simp [decodeUartAccess, ha]

namespace Machine

/-- A step on a request of a wrong width answers the rejected access, in the state without the request. -/
theorem step_of_decode_invalidWidth {s : State} {r : Request} {rest : List Request} {dev : Dev} {dir : Dir} {off : Word}
    {w : Nat} (hp : s.pending = r :: rest) (hwf : s.params.wf = true)
    (hd : decode s.params r = .invalidWidth dev dir off w) :
    step s = .next (rejectAccess dev .invalidWidth dir off w { s with pending := rest }) := by
  rw [step_eq hp hwf, hd]
  rfl

/-- A step on a request that decodes to a rejection is that refusal. -/
theorem step_of_decode_reject {s : State} {r : Request} {rest : List Request} {why : Reject}
    (hp : s.pending = r :: rest) (hwf : s.params.wf = true) (hd : decode s.params r = .reject why) :
    step s = rejected why := by
  rw [step_eq hp hwf, hd]
  rfl

/-- Settles O36: both directions share the controller's common entry, and a rejected access only answers and logs. -/
theorem wrongWidthOnlyLogs : Obligations.WrongWidthOnlyLogs := by
  intro off v w rest s hwf
  refine ⟨fun hw => ⟨fun hp => ?_, fun hp => ?_⟩, fun ha hw => ⟨fun hp => ?_, fun hp => ?_⟩⟩
  · exact step_of_decode_invalidWidth hp hwf (decodePinAccess_wrong_width hw ..)
  · exact step_of_decode_invalidWidth hp hwf (decodePinAccess_wrong_width hw ..)
  · exact step_of_decode_invalidWidth hp hwf (decodeUartAccess_wrong_width ha hw ..)
  · exact step_of_decode_invalidWidth hp hwf (decodeUartAccess_wrong_width ha hw ..)

/-- Settles O37: the common entries reject a misaligned access in both directions, before they decode its offset. -/
theorem misalignedAccessIsRefused : Obligations.MisalignedAccessIsRefused := by
  intro off v w rest s hwf
  refine ⟨fun hw ha => ⟨fun hp => ?_, fun hp => ?_⟩, fun ha => ⟨fun hp => ?_, fun hp => ?_⟩⟩
  · exact step_of_decode_reject hp hwf (decodePinAccess_misaligned hw ha ..)
  · exact step_of_decode_reject hp hwf (decodePinAccess_misaligned hw ha ..)
  · exact step_of_decode_reject hp hwf (decodeUartAccess_misaligned ha ..)
  · exact step_of_decode_reject hp hwf (decodeUartAccess_misaligned ha ..)

end Machine
end Sys2Proof
end

section
/-! Proofs for the pin register family: the reads (rules R102 to R111), the writes (rules R112 to R117, R119 to R121),
and the invalid accesses of both controllers (rules R122, R123, R174, R187). -/

namespace Sys2Proof.Machine

/-! ### Reads -/

/-- The value a pin read takes its low bytes from: a constant, a control register, a pin's word or one of its levels
(rules R102 to R111). -/
def pinReadValue (s : State) : PinTarget → Word
  | .id0            => s.params.pinIdValue0
  | .id1            => s.params.pinIdValue1
  | .edgeStatus     => s.pin.edgeStatus
  | .irqEnable      => s.pin.irqEnable
  | .edgeTypeSelect => s.pin.edgeTypeSelect
  | .risingEnable   => s.pin.risingEnable
  | .fallingEnable  => s.pin.fallingEnable
  | .filterEnable   => s.pin.filterEnable
  | .cfg p _        => (s.pin.slot p).cfg
  | .out p          => levelWord (s.pin.slot p).outputLevel
  | .inp p          => levelWord (s.pin.slot p).inputLevel

/-- Rule R100: a pin read that selects a register replies with the low bytes of its value and changes nothing. -/
theorem exec_pinReadInstr_some (off : Word) (w : Width) (t : PinTarget) (s : State) :
    exec (pinReadInstr off w (some t)) s = .next { s with reply := .word (lowBytes w (pinReadValue s t)) } := by
  cases t <;> rfl

/-- Settles O1: the reads are two of the pin reads, and no operation changes a parameter. -/
theorem pinIdReadsGiveTheirConstants : Obligations.PinIdReadsGiveTheirConstants := by
  refine ⟨fun w s => ⟨exec_pinReadInstr_some 0 w .id0 s, exec_pinReadInstr_some 0 w .id1 s⟩, fun i s t h => ?_⟩
  rw [exec_params h]
  exact ⟨rfl, rfl⟩

/-- Settles O2: each is the pin read of its control register. -/
theorem pinControlReadsGiveTheLiveValue : Obligations.PinControlReadsGiveTheLiveValue := fun w s =>
  ⟨exec_pinReadInstr_some 0 w .edgeStatus s, exec_pinReadInstr_some 0 w .irqEnable s,
    exec_pinReadInstr_some 0 w .edgeTypeSelect s, exec_pinReadInstr_some 0 w .risingEnable s,
    exec_pinReadInstr_some 0 w .fallingEnable s, exec_pinReadInstr_some 0 w .filterEnable s⟩

/-- Settles O3: each is the pin read of pin p's slot, and the low bytes of a level are the level at every width. -/
theorem pinBlockReadsGiveOnePin : Obligations.PinBlockReadsGiveOnePin := by
  intro p lane w s
  have hout := exec_pinReadInstr_some 0 w (.out p) s
  have hin := exec_pinReadInstr_some 0 w (.inp p) s
  simp only [pinReadValue, lowBytes_levelWord] at hout hin
  exact ⟨exec_pinReadInstr_some 0 w (.cfg p lane) s, hout, hin⟩

/-! ### Rejected accesses -/

/-- Settles O5: both are rejected accesses at the offset itself, the serial one of width 4. -/
theorem invalidReadsLogAndGiveZero : Obligations.InvalidReadsLogAndGiveZero := fun off w s =>
  ⟨congrArg Host.Outcome.next (rejectAccess_eq .pin .invalidAddress .read off w.bytes s),
    congrArg Host.Outcome.next (rejectAccess_eq .uart .invalidAddress .read off 4 s)⟩

/-- Settles O6: three are rejected at the register's own offset, two at the offset of the access. -/
theorem rejectedWritesOnlyLog : Obligations.RejectedWritesOnlyLog := fun p off w _ s =>
  ⟨congrArg Host.Outcome.next (rejectPinWrite_eq .invalidAddress .id0 w s),
    congrArg Host.Outcome.next (rejectPinWrite_eq .invalidAddress .id1 w s),
    congrArg Host.Outcome.next (rejectPinWrite_eq .readOnly (.inp p) w s),
    congrArg Host.Outcome.next (rejectAccess_eq .pin .invalidAddress .write off w.bytes s),
    congrArg Host.Outcome.next (rejectAccess_eq .uart .invalidAddress .write off 4 s)⟩

/-! ### Control writes -/

/-- Settles O7: the equation of the write-1-to-clear. -/
theorem edgeStatusWriteClearsAndLowersTheLine : Obligations.EdgeStatusWriteClearsAndLowersTheLine :=
  exec_pinWrEdgeStatus_eq

/-- Rule R101: a write that only stores updates the pin controller from the low bytes of the value. -/
theorem pinStore_eq (f : PinState → Word → PinState) (w : Width) (data : Word) (s : State) :
    pinStore f w data s = { s with pin := f s.pin (lowBytes w data), reply := .none } := rfl

/-- Settles O9: each only stores, in its own register. -/
theorem pinControlWritesReplaceTheRegister : Obligations.PinControlWritesReplaceTheRegister := fun w data s =>
  ⟨congrArg Host.Outcome.next (pinStore_eq (fun c v => { c with irqEnable := v }) w data s),
    congrArg Host.Outcome.next (pinStore_eq (fun c v => { c with edgeTypeSelect := v }) w data s),
    congrArg Host.Outcome.next (pinStore_eq (fun c v => { c with risingEnable := v }) w data s),
    congrArg Host.Outcome.next (pinStore_eq (fun c v => { c with fallingEnable := v }) w data s)⟩

/-! ### Writes to one pin -/

/-- A write to pin p that replaces its slot leaves the other pins and the registers. -/
theorem mapPin_setSlot_answer (s : State) (p : Fin nPins) (x : PinSlot) (r : Reply) :
    (s.mapPin fun c => c.setSlot p x).answer r =
      { s with pin := { s.pin with pins := s.pin.pins.set p x }, reply := r } := rfl

/-- Settles O11: the write replaces pin p's slot, whose direction and input buffer are two bits of the new word. -/
theorem cfgWriteReplacesTheWordAndDerives : Obligations.CfgWriteReplacesTheWordAndDerives := by
  intro p lane w data s v
  exact congrArg Host.Outcome.next (mapPin_setSlot_answer s p
    { s.pin.slot p with cfg := v, direction := cfgDirection s.params v, ibe := cfgIbe s.params v } .none)

/-- Rule R120. -/
theorem exec_pinWrOut_eq (p : Fin nPins) (w : Width) (data : Word) (s : State) :
    exec (.pinWrOut p w data) s =
      let x := s.pin.slot p
      let l := data.getLsbD 0
      let t := (s.mapPin fun c => c.setSlot p { x with outputLevel := l }).answer .none
      if x.direction = .output ∧ (s.params.pinDriveOnChangeOnly = true → l ≠ x.outputLevel) then
        .next (t.emit (.drivePin p l))
      else .next t := by
  simp only [exec, execPinWrOut, lowBit_lowBytes, ← Bool.not_eq_true, imp_iff_not_or]

/-- Settles O12: the two branches of the write, which replaces pin p's slot. -/
theorem outWriteStoresAndDrives : Obligations.OutWriteStoresAndDrives := by
  intro p w data s l t drives
  refine ⟨fun hdrives => ?_, fun hdrives => ?_⟩
  · exact (exec_pinWrOut_eq p w data s).trans (if_pos hdrives)
  · exact (exec_pinWrOut_eq p w data s).trans (if_neg hdrives)

end Sys2Proof.Machine
end

section
/-! Proofs for the pin event family: the external level event (rules R140 to R142, R145, R147) and the edge state
machine of one pin (rule R148). -/

namespace Sys2Proof

/-- Rule R147: the level is checked before the index. -/
theorem decodePinEvent_of_one_lt_level {p level : Nat} (hl : 1 < level) :
    decodePinEvent p level = .reject .levelDomain :=
  if_pos hl

/-- Rule R145: under a legal level, an index past the last pin selects the invalid event. -/
theorem decodePinEvent_of_nPins_le {p level : Nat} (hl : level ≤ 1) (hp : nPins ≤ p) :
    decodePinEvent p level = .instr (.pinEvInvalidPin p (level == 1)) := by
  rw [decodePinEvent, if_neg (Nat.not_lt.mpr hl), dif_neg (Nat.not_lt.mpr hp)]

namespace Machine

/-- A step on a request that decodes to an operation runs it, in the state without the request. -/
theorem step_of_decode_instr {s : State} {r : Request} {rest : List Request} {i : Instr}
    (hp : s.pending = r :: rest) (hwf : s.params.wf = true) (hd : decode s.params r = .instr i) :
    step s = exec i { s with pending := rest } := by
  rw [step_eq hp hwf, hd]
  rfl

/-- Settles O14: the three equations of the event; an interrupting pin has a status bit, whose mask is set. -/
theorem pinEventLatchesAndQualifies : Obligations.PinEventLatchesAndQualifies := by
  intro p level s latched
  refine ⟨exec_pinEvSetInput_off, exec_pinEvSetInput_latches, fun hibe he => ?_⟩
  have ⟨b, hb, _⟩ := he
  have hx := exec_pinEvSetInput_interrupts hibe he
  rw [hb] at hx
  exact ⟨b, hb, hx⟩

/-- Settles O15: a level past 1 is rejected by the decoder, and an index past the last pin selects the invalid event. -/
theorem pinEventChecksLevelThenIndex : Obligations.PinEventChecksLevelThenIndex := by
  intro p level rest s hwf hp
  refine ⟨fun hl => ?_, fun hl hpin => ?_⟩
  · exact step_of_decode_reject hp hwf (decodePinEvent_of_one_lt_level hl)
  · exact step_of_decode_instr hp hwf (decodePinEvent_of_nPins_le hl hpin)

/-! ### When an event on a pin with a status bit interrupts (rule R141) -/

/-- The condition of an interrupting event, in terms of the pin's status bit. -/
theorem edgeInterrupts_iff_of_edgeBit {s : State} {p : Fin nPins} {b : Nat} (hb : s.params.edgeBit p = some b)
    (level : Bool) :
    edgeInterrupts s p level ↔ bit s.pin.irqEnable b = true ∧
      ((bit s.pin.risingEnable b = true ∧ (s.pin.slot p).prevInputLevel = false ∧ level = true) ∨
       (bit s.pin.fallingEnable b = true ∧ (s.pin.slot p).prevInputLevel = true ∧ level = false)) := by
  simp [edgeInterrupts, hb]

/-- A repeated level is no edge (rule R140). -/
theorem not_edgeInterrupts_of_prev_eq {s : State} {p : Fin nPins} {level : Bool}
    (h : (s.pin.slot p).prevInputLevel = level) : ¬ edgeInterrupts s p level := by
  rintro ⟨b, -, -, ⟨-, h0, h1⟩ | ⟨-, h1, h0⟩⟩ <;> simp_all

/-! ### What an event with the input buffer on leaves behind (rule R140) -/

section
variable {s t : State} {p : Fin nPins} {level : Bool} (hibe : (s.pin.slot p).ibe = true)
  (h : exec (.pinEvSetInput p level) s = .next t)
include hibe h

/-- The event latches the level in both places of its pin, whether or not it interrupts. -/
theorem slot_of_exec_pinEvSetInput :
    t.pin.slot p = { s.pin.slot p with inputLevel := level, prevInputLevel := level } := by
  by_cases he : edgeInterrupts s p level
  · rw [exec_pinEvSetInput_interrupts hibe he] at h
    cases h
    exact setSlot_slot_self ..
  · rw [exec_pinEvSetInput_latches hibe he] at h
    cases h
    exact setSlot_slot_self ..

/-- Both level fields of the pin read as the event's level. -/
theorem levels_of_exec_pinEvSetInput :
    (t.pin.slot p).inputLevel = level ∧ (t.pin.slot p).prevInputLevel = level := by
  rw [slot_of_exec_pinEvSetInput hibe h]
  exact ⟨rfl, rfl⟩

/-- An event that does not interrupt leaves the status register and the line. -/
theorem status_and_line_of_not_edgeInterrupts (he : ¬ edgeInterrupts s p level) :
    t.pin.edgeStatus = s.pin.edgeStatus ∧ t.pin.irq = s.pin.irq := by
  rw [exec_pinEvSetInput_latches hibe he] at h
  cases h
  exact ⟨rfl, rfl⟩

/-- After an event a status bit is set if it was set before, or if it is the pin's own and the event interrupts. -/
theorem bit_edgeStatus_of_exec_pinEvSetInput (i : Nat) :
    bit t.pin.edgeStatus i = true ↔
      bit s.pin.edgeStatus i = true ∨ (s.params.edgeBit p = some i ∧ edgeInterrupts s p level) := by
  by_cases he : edgeInterrupts s p level
  · have ⟨b, hb, hen, _⟩ := he
    have hlt : b < 32 := bit_lt hen
    rw [exec_pinEvSetInput_interrupts hibe he] at h
    cases h
    simp only [hb, maskAt, bit_or, bit_mask, Bool.or_eq_true, decide_eq_true_eq, Option.some.injEq, he, and_true]
    exact or_congr_right (and_iff_left_of_imp fun hi => hi ▸ hlt)
  · rw [(status_and_line_of_not_edgeInterrupts hibe h he).1]
    simp [he]

end

/-! ### The transitions of one pin (rule R148) -/

/-- With the input buffer on and the interrupt enabled, a repeated level changes nothing, a rise or a fall sets the
pin's bit if that edge is enabled, and no other bit changes. -/
theorem exec_pinEvSetInput_transition {s t : State} {p : Fin nPins} {b : Nat} {level : Bool}
    (hprev : (s.pin.slot p).prevInputLevel = (s.pin.slot p).inputLevel) (hb : s.params.edgeBit p = some b)
    (hibe : (s.pin.slot p).ibe = true) (hen : bit s.pin.irqEnable b = true)
    (h : exec (.pinEvSetInput p level) s = .next t) :
    (level = (s.pin.slot p).inputLevel → t.pin.edgeStatus = s.pin.edgeStatus ∧ t.pin.irq = s.pin.irq) ∧
    (level = true → (s.pin.slot p).inputLevel = false →
      bit t.pin.edgeStatus b = (bit s.pin.edgeStatus b || bit s.pin.risingEnable b)) ∧
    (level = false → (s.pin.slot p).inputLevel = true →
      bit t.pin.edgeStatus b = (bit s.pin.edgeStatus b || bit s.pin.fallingEnable b)) ∧
    (∀ i, i ≠ b → bit t.pin.edgeStatus i = bit s.pin.edgeStatus i) := by
  have hbit := bit_edgeStatus_of_exec_pinEvSetInput hibe h
  refine ⟨fun hsame => ?_, fun hlevel hlow => ?_, fun hlevel hhigh => ?_, fun i hi => ?_⟩
  · exact status_and_line_of_not_edgeInterrupts hibe h (not_edgeInterrupts_of_prev_eq (hprev.trans hsame.symm))
  · rw [Bool.eq_iff_iff, hbit, edgeInterrupts_iff_of_edgeBit hb]
    simp [hb, hen, hprev, hlevel, hlow]
  · rw [Bool.eq_iff_iff, hbit, edgeInterrupts_iff_of_edgeBit hb]
    simp [hb, hen, hprev, hlevel, hhigh]
  · rw [Bool.eq_iff_iff, hbit]
    simp [hb, hi.symm]

/-- A write-1-to-clear changes no pin. -/
theorem slot_of_exec_pinWrEdgeStatus {w : Width} {data : Word} {s t : State}
    (h : exec (.pinWrEdgeStatus w data) s = .next t) (p : Fin nPins) : t.pin.slot p = s.pin.slot p := by
  rw [exec_pinWrEdgeStatus_eq] at h
  split at h <;> cases h <;> rfl

/-- Settles O56: every operation completes, and each clause is what its operation leaves behind. -/
theorem edgeStateMachineFollowsTheLevels : Obligations.EdgeStateMachineFollowsTheLevels := by
  intro p b s hprev hb
  refine ⟨fun level hibe hen => ?_, fun w data hclear => ?_, fun level hibe hdis => ?_,
    fun level => exec_pinEvSetInput_off⟩
  · obtain ⟨t, h⟩ := exec_completes (.pinEvSetInput p level) s
    obtain ⟨hin, hpr⟩ := levels_of_exec_pinEvSetInput hibe h
    exact ⟨t, h, hin, hpr, exec_pinEvSetInput_transition (hprev p) hb hibe hen h⟩
  · obtain ⟨t, h⟩ := exec_completes (.pinWrEdgeStatus w data) s
    refine ⟨t, h, ?_, ?_, ?_⟩
    · simp [edgeStatus_of_exec_pinWrEdgeStatus h, hclear]
    · rw [slot_of_exec_pinWrEdgeStatus h]
    · rw [slot_of_exec_pinWrEdgeStatus h]
  · obtain ⟨t, h⟩ := exec_completes (.pinEvSetInput p level) s
    obtain ⟨hin, hpr⟩ := levels_of_exec_pinEvSetInput hibe h
    have he : ¬ edgeInterrupts s p level := by simp [edgeInterrupts_iff_of_edgeBit hb, hdis]
    exact ⟨t, h, hin, hpr, (status_and_line_of_not_edgeInterrupts hibe h he).1⟩

end Machine
end Sys2Proof
end

section
/-! Proofs for the serial register family: the stored registers (rules R162 to R166, R168, R170 to R173, R175 to R179,
R183 to R186), the CTRL write (rule R181) and the two directions of DATA (rules R169, R182). -/

namespace Sys2Proof.Machine

/-! ### Registers that only store -/

/-- Rule R160: the end of a serial read changes nothing but the reply. -/
theorem uartReadReply_eq (v : Word) (s : State) : uartReadReply v s = { s with reply := .word v } := rfl

/-- Settles O18: each ends in the reply of its constant or its stored register, with no effect before it. -/
theorem uartStoredReadsGiveTheRegister : Obligations.UartStoredReadsGiveTheRegister := fun s =>
  ⟨congrArg Host.Outcome.next (uartReadReply_eq s.params.uartVeridValue s),
    congrArg Host.Outcome.next (uartReadReply_eq s.params.uartParamValue s),
    congrArg Host.Outcome.next (uartReadReply_eq s.uart.plain.globalReg s),
    congrArg Host.Outcome.next (uartReadReply_eq s.uart.plain.pincfg s),
    congrArg Host.Outcome.next (uartReadReply_eq s.uart.plain.baud s),
    congrArg Host.Outcome.next (uartReadReply_eq s.uart.ctrl s),
    congrArg Host.Outcome.next (uartReadReply_eq s.uart.plain.matchReg s),
    congrArg Host.Outcome.next (uartReadReply_eq s.uart.plain.modir s),
    congrArg Host.Outcome.next (uartReadReply_eq s.uart.plain.fifoReg s),
    congrArg Host.Outcome.next (uartReadReply_eq s.uart.plain.water s)⟩

/-- Settles O21: the meaning of both is the reply alone, whatever the value. -/
theorem uartConstantWritesAreDropped : Obligations.UartConstantWritesAreDropped := fun _ _ => ⟨rfl, rfl⟩

/-- Rules R43, R161: a serial write that only stores updates the plain slots. -/
theorem uartStore_eq (f : PlainSlots → PlainSlots) (s : State) :
    uartStore f s = { s with uart := { s.uart with plain := f s.uart.plain }, reply := .none } := rfl

/-- Settles O22: each only stores, in its own slot. -/
theorem uartPlainWritesStoreVerbatim : Obligations.UartPlainWritesStoreVerbatim := fun v s =>
  ⟨congrArg Host.Outcome.next (uartStore_eq (fun r => { r with globalReg := v }) s),
    congrArg Host.Outcome.next (uartStore_eq (fun r => { r with pincfg := v }) s),
    congrArg Host.Outcome.next (uartStore_eq (fun r => { r with baud := v }) s),
    congrArg Host.Outcome.next (uartStore_eq (fun r => { r with matchReg := v }) s),
    congrArg Host.Outcome.next (uartStore_eq (fun r => { r with modir := v }) s),
    congrArg Host.Outcome.next (uartStore_eq (fun r => { r with fifoReg := v }) s),
    congrArg Host.Outcome.next (uartStore_eq (fun r => { r with water := v }) s)⟩

/-! ### The CTRL write -/

/-- Settles O24: the line is recomputed, as one record update, in the state that holds the new CTRL. -/
theorem ctrlWriteRecomputesTheLine : Obligations.CtrlWriteRecomputesTheLine := by
  intro v s c
  simp only [exec, execUartWrCtrl, uartIrqRecompute_eq]
  rfl

/-! ### DATA -/

/-- Settles O25: the two branches of the write, over TE. -/
theorem dataWriteTransmitsTheLowByte : Obligations.DataWriteTransmitsTheLowByte := fun _ _ =>
  ⟨fun hte => if_pos hte, fun hte => if_neg (Bool.eq_false_iff.mp hte)⟩

/-- A DATA read of an empty FIFO replies 0. -/
theorem exec_uartRdData_of_empty {s : State} (h : s.uart.rxLen = 0) :
    exec .uartRdData s = .next (uartReadReply 0 s) :=
  if_pos h

/-- A DATA read that leaves bytes in the FIFO only pops. -/
theorem exec_uartRdData_of_one_lt {s : State} (h : 1 < s.uart.rxLen) :
    exec .uartRdData s = .next (uartReadReply (byteWord (fifoHead s.uart)) (s.mapUart fifoDrop)) := by
  have hlen : s.uart.rxLen ≠ 0 := by omega
  have hdrop : (fifoDrop s.uart).rxLen ≠ 0 := Nat.sub_ne_zero_of_lt h
  simp [exec, execUartRdData, hlen, hdrop]

/-- The serial controller after the pop that empties the FIFO: RDRF is clear (rule R169). -/
def fifoDrain (P : Params) (u : UartState) : UartState :=
  { fifoDrop u with stat := u.stat &&& ~~~(mask P.statRdrf) }

/-- A DATA read of the last byte drains the FIFO, and recomputes the line if `UART_IRQ_UPDATE_ON_DRAIN`. -/
theorem exec_uartRdData_of_one {s : State} (h : s.uart.rxLen = 1) :
    exec .uartRdData s = .next (uartReadReply (byteWord (fifoHead s.uart))
      (if s.params.uartIrqUpdateOnDrain then uartIrqRecompute (s.mapUart (fifoDrain s.params))
        else s.mapUart (fifoDrain s.params))) := by
  have hlen : s.uart.rxLen ≠ 0 := by omega
  have hdrop : (fifoDrop s.uart).rxLen = 0 := by simp [fifoDrop, h]
  simp only [exec, execUartRdData, hlen, mapUart_uart, hdrop, if_true, if_false]
  rfl

/-- Settles O20: the three lengths of the FIFO, and for the last byte both values of the switch. -/
theorem dataReadPopsTheOldestByte : Obligations.DataReadPopsTheOldestByte := by
  intro s popped drained v c
  refine ⟨exec_uartRdData_of_empty, exec_uartRdData_of_one_lt, fun hlen hkeep => ?_, fun hlen hupdate => ?_⟩
  · rw [exec_uartRdData_of_one hlen, hkeep]
    rfl
  · rw [exec_uartRdData_of_one hlen, if_pos hupdate, uartIrqRecompute_eq]
    rfl

end Sys2Proof.Machine
end

section
/-! Proofs for the serial events: the receive event (rule R201) and the capacity query (rule R202). -/

namespace Sys2Proof.Machine

/-! ### Queueing the bytes that fit -/

/-- How many of the bytes fit in the FIFO (rule R201). -/
def rxAccepted (u : UartState) (bytes : List Byte) : Nat := min bytes.length (rxCap - u.rxLen)

/-- The serial controller with the bytes that fit queued, its status and line as they were (rule R201). -/
def rxQueue (bytes : List Byte) (u : UartState) : UartState := fifoPushAll u (bytes.take (rxAccepted u bytes))

section
variable (bytes : List Byte) (u : UartState)

theorem length_take_rxAccepted : (bytes.take (rxAccepted u bytes)).length = rxAccepted u bytes :=
  List.length_take_of_le (Nat.min_le_left ..)

@[simp] theorem rxQueue_stat : (rxQueue bytes u).stat = u.stat := fifoPushAll_stat ..
@[simp] theorem rxQueue_ctrl : (rxQueue bytes u).ctrl = u.ctrl := fifoPushAll_ctrl ..
@[simp] theorem rxQueue_plain : (rxQueue bytes u).plain = u.plain := fifoPushAll_plain ..
@[simp] theorem rxQueue_irq : (rxQueue bytes u).irq = u.irq := fifoPushAll_irq ..
@[simp] theorem rxQueue_head : (rxQueue bytes u).rxHead = u.rxHead := fifoPushAll_head ..
@[simp] theorem rxQueue_len : (rxQueue bytes u).rxLen = u.rxLen + rxAccepted u bytes := by
  rw [rxQueue, fifoPushAll_len, length_take_rxAccepted]

variable {bytes u}

/-- What is accepted fits, so it stands behind what was queued (rule R205). -/
theorem rxQueue_contents (h : u.rxLen ≤ rxCap) :
    fifoContents (rxQueue bytes u) = fifoContents u ++ bytes.take (rxAccepted u bytes) := by
  refine fifoPushAll_contents _ u ?_
  rw [length_take_rxAccepted, rxAccepted]
  omega

end

/-! ### The receive event -/

/-- With RE set the event queues what fits and answers how many did; whether the FIFO then holds a byte decides the
rest. -/
theorem exec_uartEvReceive_of_re_set {s : State} {bytes : List Byte}
    (hre : bit s.uart.ctrl s.params.ctrlRe = true) :
    exec (.uartEvReceive bytes) s = .next (State.answer
      (if 0 < (rxQueue bytes s.uart).rxLen then
        uartIrqRecompute (s.mapUart fun u =>
          { rxQueue bytes u with stat := (rxQueue bytes u).stat ||| mask s.params.statRdrf })
      else s.mapUart (rxQueue bytes)) (.count (rxAccepted s.uart bytes))) :=
  if_neg (by simp [hre])

/-- Settles O26: RE clear, an empty FIFO afterwards, and a FIFO that holds a byte, with the line recomputed. -/
theorem receiveQueuesWhatFits : Obligations.ReceiveQueuesWhatFits := by
  intro bytes s hcap n
  have hn : rxAccepted s.uart bytes = n := rfl
  refine ⟨fun hre => if_pos hre, fun hre => ⟨_, exec_uartEvReceive_of_re_set hre, ?_⟩⟩
  have hcontents : fifoContents (rxQueue bytes s.uart) = fifoContents s.uart ++ bytes.take n := rxQueue_contents hcap
  by_cases hlen : 0 < s.uart.rxLen + n
  · have hpos : 0 < (rxQueue bytes s.uart).rxLen := by rwa [rxQueue_len, hn]
    rw [if_pos hpos, uartIrqRecompute_eq]
    exact ⟨rfl, hcontents, rxQueue_len .., rxQueue_head .., rxQueue_ctrl .., rxQueue_plain ..,
      fun hempty => absurd hempty hlen.ne', fun _ => ⟨by simp [mask], rfl, by simp⟩, rfl, rfl, rfl, rfl⟩
  · simp [hn, hlen, hcontents]

/-! ### The capacity query -/

/-- Settles O27: the meaning is the reply alone, and RE is not read. -/
theorem capacityQueryGivesTheFreeSpace : Obligations.CapacityQueryGivesTheFreeSpace := fun _ => rfl

end Sys2Proof.Machine
end

section
/-! Proofs for the exceptions family: what a step that raises a diagnostic leaves alone (rules R220 to R222). -/

namespace Sys2Proof.Machine

/-- The operation the next step performs is the one the oldest request decodes to. -/
theorem performs_iff_decode {s : State} {r : Request} {rest : List Request} (hp : s.pending = r :: rest) {i : Instr} :
    s.performs i ↔ decode s.params r = .instr i := by
  simp [State.performs, hp]

/-- The codes of rule R221's table. -/
theorem DiagKind.code_mem_table (k : DiagKind) : k.code ∈ [1, 2, 3, 4] := by cases k <;> decide

/-- A request that raised a diagnostic returns 0 or nothing (rule R220). -/
theorem errorReply_zero_or_none (dir : Dir) : errorReply dir = .word 0 ∨ errorReply dir = .none := by
  cases dir
  · exact .inl rfl
  · exact .inr rfl

/-- Settles O52: a step that logs ran an operation whose record `exec_output` describes, or logged an access of a wrong
width, whose code is 3 and which decodes to no operation. -/
theorem diagnosticsChangeNoState : Obligations.DiagnosticsChangeNoState := by
  intro s t h hlog
  rcases step_cases h with ⟨-, rfl⟩ | ⟨r, rest, hp, -, ⟨i, hd, he⟩ | ⟨dev, dir, off, w, hd, rfl⟩⟩
  · exact absurd rfl hlog
  · rcases exec_output he with ⟨hkept, -⟩ | ⟨d, hadd, htrace, hpin, huart, hreply, hcode2, hcode4⟩
    · exact absurd hkept hlog
    · have hperf (j : Instr) : s.performs j ↔ i = j := by simp [performs_iff_decode hp, hd]
      exact ⟨hpin, huart, htrace, hreply, d, hadd, d.kind.code_mem_table, hcode2, by simpa only [hperf] using hcode4⟩
  · have hperf (j : Instr) : ¬ s.performs j := by simp [performs_iff_decode hp, hd]
    exact ⟨rfl, rfl, rfl, errorReply_zero_or_none dir, _, rfl, DiagKind.code_mem_table _, by simp [DiagKind.code],
      by simp [DiagKind.code, hperf]⟩

end Sys2Proof.Machine
end

section
/-! Proofs for the reset and hazard family: the two resets (rules R251, R253), narrow writes (rule R258), pins without a
status bit (rule R261), and the transmit interrupt (rule R262). -/

namespace Sys2Proof.Machine

/-! ### The two resets (rules R251, R253) -/

/-- Settles O17: the equation of the reset, and every pin of the reset pin controller is a reset pin. -/
theorem pinResetRestoresEveryField : Obligations.PinResetRestoresEveryField := fun s =>
  ⟨_, exec_pinReset_eq s, rfl, rfl, rfl, rfl, rfl, rfl, rfl, reset_slot, rfl, rfl, rfl, rfl, rfl, rfl⟩

/-- Settles O55: after a reset the controller holds its reset values, so the line is low and the second has nothing to
change or to emit. -/
theorem resetIsIdempotent : Obligations.ResetIsIdempotent := by
  refine fun s t => ⟨fun h => ?_, fun h => ?_⟩
  · rw [exec_pinReset_eq] at h ⊢
    cases h
    rfl
  · rw [exec_uartReset_eq] at h ⊢
    cases h
    rfl

/-! ### Narrow writes (rule R258) -/

/-- An access of width w carries no bit from `8*w` up. -/
theorem bit_lowBytes_of_ge {w : Width} {i : Nat} (hi : 8 * w.bytes ≤ i) (v : Word) : bit (lowBytes w v) i = false := by
  simp [bit_lowBytes, Nat.not_lt.mpr hi]

/-- A 1- or 2-byte access carries no bit from 16 up. -/
theorem eight_mul_bytes_le_of_ne_b4 {w : Width} (hw : w ≠ .b4) : 8 * w.bytes ≤ 16 := by
  cases w
  case b4 => exact absurd rfl hw
  all_goals decide

/-- A configuration write derives pin p's direction and input buffer from the new word (rule R119). -/
theorem slot_of_exec_pinWrCfg {p : Fin nPins} {lane : Fin 4} {w : Width} {data : Word} {s t : State}
    (h : exec (.pinWrCfg p lane w data) s = .next t) :
    t.pin.slot p = { s.pin.slot p with
      cfg := lowBytes w data
      direction := cfgDirection s.params (lowBytes w data)
      ibe := cfgIbe s.params (lowBytes w data) } := by
  cases h
  exact setSlot_slot_self ..

/-- Settles O13: each control register and the configuration word hold the low bytes alone; a write-1-to-clear keeps the
bits its low bytes do not name. -/
theorem narrowWritesReplaceTheWholeRegister : Obligations.NarrowWritesReplaceTheWholeRegister := by
  intro p lane w data s
  have hlow (i : Nat) (hi : 8 * w.bytes ≤ i) : bit (lowBytes w data) i = false := bit_lowBytes_of_ge hi data
  refine ⟨fun t h => ?irqEnable, fun t h => ?edgeTypeSelect, fun t h => ?risingEnable, fun t h => ?fallingEnable,
    fun t hwritable h => ?filterEnable, fun t h => ?cfg, fun t h i hi => ?edgeStatus⟩
  case irqEnable | edgeTypeSelect | risingEnable | fallingEnable =>
    cases h
    exact hlow
  case filterEnable =>
    cases (if_pos hwritable).symm.trans h
    exact hlow
  case cfg =>
    rw [slot_of_exec_pinWrCfg h]
    refine ⟨hlow, fun hw hobe hibe => ?_⟩
    have h16 : 8 * w.bytes ≤ 16 := eight_mul_bytes_le_of_ne_b4 hw
    have h21 : bit (lowBytes w data) 21 = false := hlow 21 (by omega)
    have h19 : bit (lowBytes w data) 19 = false := hlow 19 (by omega)
    exact ⟨h21, h19, by simp [cfgDirection, hobe, h21], by simp [cfgIbe, hibe, h19]⟩
  case edgeStatus =>
    have hlt : bit s.pin.edgeStatus i = true → i < 32 := bit_lt
    simpa [edgeStatus_of_exec_pinWrEdgeStatus h, hlow i hi] using hlt

/-! ### Pins without a status bit (rule R261) -/

/-- The default table gives pins from 32 up no status bit (decision D8). -/
theorem edgeBit_eq_none_of_default {P : Params} {p : Fin nPins} (hP : P.edgeBitTable = defaultEdgeBitTable)
    (hp : 32 ≤ p.val) : P.edgeBit p = none := by
  simp [Params.edgeBit, hP, defaultEdgeBitTable, hp]

/-- A pin without a status bit never interrupts. -/
theorem not_edgeInterrupts_of_edgeBit_eq_none {s : State} {p : Fin nPins} (hb : s.params.edgeBit p = none)
    (level : Bool) : ¬ edgeInterrupts s p level := by
  rintro ⟨b, hsome, -⟩
  simp [hb] at hsome

/-- An event that does not interrupt changes no status bit, no line and no exit trace, whether or not the pin's input
buffer is on. -/
theorem exec_pinEvSetInput_silent {s t : State} {p : Fin nPins} {level : Bool} (he : ¬ edgeInterrupts s p level)
    (h : exec (.pinEvSetInput p level) s = .next t) :
    t.pin.edgeStatus = s.pin.edgeStatus ∧ t.pin.irq = s.pin.irq ∧ t.trace = s.trace := by
  cases hibe : (s.pin.slot p).ibe
  · rw [exec_pinEvSetInput_off hibe] at h
    cases h
    exact ⟨rfl, rfl, rfl⟩
  · rw [exec_pinEvSetInput_latches hibe he] at h
    cases h
    exact ⟨rfl, rfl, rfl⟩

/-- Settles O58: such a pin has no status bit, so the event is silent; with its buffer on the level it latches is what
the read finds. -/
theorem pinsPastTheStatusWordNeverInterrupt : Obligations.PinsPastTheStatusWordNeverInterrupt := by
  intro p level s t hP hp h
  have he := not_edgeInterrupts_of_edgeBit_eq_none (edgeBit_eq_none_of_default hP hp) level
  obtain ⟨hstatus, hirq, htrace⟩ := exec_pinEvSetInput_silent he h
  refine ⟨hstatus, hirq, htrace, fun hibe => ?_⟩
  have hread := exec_pinReadInstr_some 0 .b1 (.inp p) t
  rwa [pinReadValue, (levels_of_exec_pinEvSetInput hibe h).1, lowBytes_levelWord] at hread

/-! ### What an operation leaves in STAT and CTRL (rules R41, R49) -/

/-- The values an operation can leave in STAT (rules R167, R169, R180, R201, R204). -/
inductive StatUpdate (P : Params) (u : UartState) : Word → Prop
  | kept : StatUpdate P u u.stat
  | read : StatUpdate P u (statRead P u)
  | cleared (v : Word) : StatUpdate P u (u.stat &&& ~~~(v &&& statW1cMask P))
  | received : StatUpdate P u (u.stat ||| mask P.statRdrf)
  | drained : StatUpdate P u (u.stat &&& ~~~(mask P.statRdrf))
  | reset : StatUpdate P u (statReset P)

/-- Every operation leaves one of these values in STAT, and only a CTRL write and the serial reset change CTRL (rules R41,
R181, R204). -/
theorem exec_stat_and_ctrl_cases {i : Instr} {s t : State} (h : exec i s = .next t) :
    StatUpdate s.params s.uart t.uart.stat ∧
    (t.uart.ctrl = s.uart.ctrl ∨ (∃ v, i = .uartWrCtrl v) ∨ i = .uartReset) := by
  cases i with
  | uartRdStat => cases h; exact ⟨.read, .inl rfl⟩
  | uartWrStat v => cases h; exact ⟨.cleared v, .inl rfl⟩
  | uartReset =>
    rw [exec_uartReset_eq] at h
    cases h
    exact ⟨.reset, .inr (.inr rfl)⟩
  | uartWrCtrl v =>
    cases h
    exact ⟨by simpa using .kept, .inr (.inl ⟨v, rfl⟩)⟩
  | uartRdData =>
    rcases Nat.lt_trichotomy s.uart.rxLen 1 with hlen | hlen | hlen
    · cases (exec_uartRdData_of_empty (Nat.lt_one_iff.mp hlen)).symm.trans h
      exact ⟨.kept, .inl rfl⟩
    · cases (exec_uartRdData_of_one hlen).symm.trans h
      rw [uartReadReply_eq]
      split
      · rw [uartIrqRecompute_eq]
        exact ⟨.drained, .inl rfl⟩
      · exact ⟨.drained, .inl rfl⟩
    · cases (exec_uartRdData_of_one_lt hlen).symm.trans h
      exact ⟨.kept, .inl rfl⟩
  | uartEvReceive bytes =>
    simp only [exec, execUartEvReceive] at h
    split at h
    · cases h
      exact ⟨.kept, .inl rfl⟩
    · split at h <;> cases h
      · exact ⟨by simpa using .received, .inl (by simp)⟩
      · exact ⟨by simpa using .kept, .inl (by simp)⟩
  | uartWrData v =>
    simp only [exec, execUartWrData] at h
    split at h <;> cases h <;> exact ⟨.kept, .inl rfl⟩
  | pinWrFilterEnable | pinWrOut | pinEvSetInput | pinWrEdgeStatus | pinReset =>
    rw [(exec_other_controller h).1 rfl]
    exact ⟨.kept, .inl rfl⟩
  | _ => cases h; exact ⟨.kept, .inl rfl⟩

/-- No operation clears TDRE (rule R49). -/
theorem StatUpdate.tdre {P : Params} {u : UartState} {v : Word} (hv : StatUpdate P u v) (hwf : P.wf = true)
    (hu : bit u.stat P.statTdre = true) : bit v P.statTdre = true := by
  obtain ⟨-, hrdrf, -, hlt, -, -⟩ := Params.stat_flags hwf
  cases hv with
  | kept => exact hu
  | read => simp [bit_statRead hwf, hrdrf]
  | cleared w =>
    obtain ⟨hidle, hor, hnf, hfe, hpf⟩ := Params.w1c_ne hwf P.statTdre (.inl rfl)
    simp [hu, hlt, statW1cMask, bit_mask, hidle.symm, hor.symm, hnf.symm, hfe.symm, hpf.symm]
  | received => simp [hu]
  | drained => simp [hu, hlt, bit_mask, hrdrf.symm]
  | reset => simp [statReset, bit_mask, hlt]

/-! ### The transmit interrupt (rule R262) -/

/-- TDRE is 1, and while TIE is set the serial line is 1 (rules R49, R262). -/
structure TransmitLine (P : Params) (u : UartState) : Prop where
  tdre : bit u.stat P.statTdre = true
  line : bit u.ctrl P.ctrlTie = true → u.irq = true

/-- With TDRE and TIE set the line's condition holds (rule R200). -/
theorem uartIrqCondition_of_tie {P : Params} {u : UartState} (htdre : bit u.stat P.statTdre = true)
    (htie : bit u.ctrl P.ctrlTie = true) : uartIrqCondition P u = true := by
  simp [uartIrqCondition, htdre, htie]

/-- The boundary invariant has TDRE at 1 and the line at 1 while its condition holds. -/
theorem State.Inv.transmitLine {s : State} (h : s.Inv) : TransmitLine s.params s.uart := by
  obtain ⟨-, htdre, -, -⟩ := h.statFlags
  obtain ⟨hline, -, -⟩ := h.uartLine
  exact ⟨htdre, fun htie => hline (uartIrqCondition_of_tie htdre htie)⟩

/-- After a recomputation the line is its condition, changed or not. -/
theorem UartLineRecomputed.irq_eq {s t : State} (h : UartLineRecomputed s t) :
    t.uart.irq = uartIrqCondition t.params t.uart := by
  obtain ⟨u, r, -, -, rfl⟩ := h
  simp

/-- The serial reset clears CTRL (rule R204). -/
theorem ctrl_of_exec_uartReset {s t : State} (h : exec .uartReset s = .next t) : t.uart.ctrl = 0 := by
  rw [exec_uartReset_eq] at h
  cases h
  rfl

/-- An operation recomputes the line under the new registers, or is the reset, which clears TIE, or keeps both CTRL and
the line. -/
theorem exec_keeps_transmitLine {i : Instr} {s t : State} (hwf : s.params.wf = true) (h : exec i s = .next t)
    (hs : TransmitLine s.params s.uart) : TransmitLine t.params t.uart := by
  obtain ⟨hstat, hctrl⟩ := exec_stat_and_ctrl_cases h
  have htdre : bit t.uart.stat t.params.statTdre = true := exec_params h ▸ hstat.tdre hwf hs.tdre
  refine ⟨htdre, fun htie => ?_⟩
  have hrecomputed (hre : UartLineRecomputed s t) : t.uart.irq = true :=
    hre.irq_eq.trans (uartIrqCondition_of_tie htdre htie)
  have hnoReset : i ≠ .uartReset := by
    rintro rfl
    simp [ctrl_of_exec_uartReset h] at htie
  rcases exec_uart_line_cases h with hirq | hi | ⟨hre, -⟩
  · rcases hctrl with hctrl | ⟨v, rfl⟩ | hi
    · rw [hctrl, exec_params h] at htie
      exact hirq.trans (hs.line htie)
    · exact hrecomputed (exec_uartWrCtrl_recomputes h)
    · exact absurd hi hnoReset
  · exact absurd hi hnoReset
  · exact hrecomputed hre

/-- The parameters are well formed at a step that runs an operation; another step leaves them and the serial
controller. -/
theorem step_keeps_transmitLine {s t : State} (h : step s = .next t) (hs : TransmitLine s.params s.uart) :
    TransmitLine t.params t.uart := by
  rcases step_cases h with ⟨-, rfl⟩ | ⟨r, rest, -, hwf, ⟨i, -, he⟩ | ⟨dev, dir, off, w, -, rfl⟩⟩
  · exact hs
  · exact exec_keeps_transmitLine (s := { s with pending := rest }) hwf he hs
  · exact hs

/-- Settles O43: the invariant holds the line before the step, and every step keeps it so, under the CTRL that a CTRL
write has just stored included. -/
theorem transmitInterruptHoldsTheLine : Obligations.TransmitInterruptHoldsTheLine := by
  intro s t hinv h
  have ⟨htdre, hline⟩ := step_keeps_transmitLine h hinv.transmitLine
  refine ⟨htdre, hline, hinv.transmitLine.line, fun v hi htie => hline ?_⟩
  obtain ⟨rest, hx⟩ := exec_of_performs h hi
  cases hx
  simpa using htie

end Sys2Proof.Machine
end

section
/-! Proofs for what every step keeps: the boundary invariants (rules R29, R31, R49 to R51, R229, R254, R257) and the
parameters (rule R6). What an operation can leave in one pin and in the serial controller is said once, as an inductive
predicate with a constructor per effect; each invariant is then a short case analysis over it. -/

namespace Sys2Proof.Machine

/-! ### What an operation leaves in one pin (rule R22) -/

/-- The slots an operation can leave at pin p, where `x` stood (rules R119, R120, R140, R146). -/
inductive SlotUpdate (P : Params) (p : Fin nPins) (x : PinSlot) : Instr → PinSlot → Prop
  | kept (i : Instr) : SlotUpdate P p x i x
  | configured (lane : Fin 4) (w : Width) (data : Word) :
      SlotUpdate P p x (.pinWrCfg p lane w data) { x with
        cfg := lowBytes w data, direction := cfgDirection P (lowBytes w data), ibe := cfgIbe P (lowBytes w data) }
  | written (w : Width) (data : Word) :
      SlotUpdate P p x (.pinWrOut p w data) { x with outputLevel := data.getLsbD 0 }
  | latched (level : Bool) : x.ibe = true →
      SlotUpdate P p x (.pinEvSetInput p level) { x with inputLevel := level, prevInputLevel := level }
  | reset : SlotUpdate P p x .pinReset PinSlot.reset

/-- Rule R120: what an output-data write leaves in the array of pins, driven or not. -/
theorem slot_of_exec_pinWrOut {q : Fin nPins} {w : Width} {data : Word} {s t : State}
    (h : exec (.pinWrOut q w data) s = .next t) (p : Fin nPins) :
    t.pin.slot p = if p = q then { s.pin.slot q with outputLevel := data.getLsbD 0 } else s.pin.slot p := by
  rw [exec_pinWrOut_eq] at h
  dsimp only at h
  split at h <;> cases h <;> exact setSlot_slot ..

/-- Rule R140: with the input buffer on, interrupting or not, the event changes no pin but its own. -/
theorem slot_of_exec_pinEvSetInput_of_ne {q : Fin nPins} {level : Bool} {s t : State}
    (h : exec (.pinEvSetInput q level) s = .next t) {p : Fin nPins} (hne : p ≠ q) :
    t.pin.slot p = s.pin.slot p := by
  cases hibe : (s.pin.slot q).ibe
  · rw [exec_pinEvSetInput_off hibe] at h
    cases h
    rfl
  · by_cases he : edgeInterrupts s q level
    · rw [exec_pinEvSetInput_interrupts hibe he] at h
      cases h
      exact setSlot_slot_of_ne _ _ _ _ hne
    · rw [exec_pinEvSetInput_latches hibe he] at h
      cases h
      exact setSlot_slot_of_ne _ _ _ _ hne

/-- Every operation leaves one of these slots at each pin. -/
theorem exec_slotUpdate {i : Instr} {s t : State} (h : exec i s = .next t) (p : Fin nPins) :
    SlotUpdate s.params p (s.pin.slot p) i (t.pin.slot p) := by
  cases i with
  | pinWrCfg q lane w data =>
    by_cases hpq : p = q
    · subst hpq
      rw [slot_of_exec_pinWrCfg h]
      exact .configured lane w data
    · cases h
      rw [answer_pin, mapPin_pin, setSlot_slot_of_ne _ _ _ _ hpq]
      exact .kept _
  | pinWrOut q w data =>
    rw [slot_of_exec_pinWrOut h]
    split
    next hpq => subst hpq; exact .written w data
    · exact .kept _
  | pinEvSetInput q level =>
    by_cases hpq : p = q
    · subst hpq
      cases hibe : (s.pin.slot p).ibe
      · rw [exec_pinEvSetInput_off hibe] at h
        cases h
        exact .kept _
      · rw [slot_of_exec_pinEvSetInput hibe h]
        exact .latched level hibe
    · rw [slot_of_exec_pinEvSetInput_of_ne h hpq]
      exact .kept _
  | pinReset =>
    rw [exec_pinReset_eq] at h
    cases h
    rw [show _ = PinSlot.reset from reset_slot p]
    exact .reset
  | pinWrEdgeStatus w data =>
    rw [slot_of_exec_pinWrEdgeStatus h]
    exact .kept _
  | pinWrFilterEnable w data =>
    simp only [exec, execPinWrFilterEnable] at h
    split at h <;> cases h <;> exact .kept _
  | uartRdData | uartWrCtrl | uartWrData | uartEvReceive | uartReset =>
    rw [(exec_other_controller h).2 rfl]
    exact .kept _
  | _ => cases h; exact .kept _

/-! ### The invariants of the pins (rules R31, R50) -/

/-- Direction and input buffer of one pin are the functions of its configuration word (rule R31). -/
def PinSlot.Derived (P : Params) (x : PinSlot) : Prop :=
  x.direction = cfgDirection P x.cfg ∧ x.ibe = cfgIbe P x.cfg

theorem PinSlot.reset_derived (P : Params) : PinSlot.reset.Derived P := by
  simp [PinSlot.Derived, PinSlot.reset, cfgDirection, cfgIbe]

/-- Only a configuration write changes the word, and it derives both anew. -/
theorem SlotUpdate.derived {P : Params} {p : Fin nPins} {x y : PinSlot} {i : Instr} (hu : SlotUpdate P p x i y)
    (hx : x.Derived P) : y.Derived P := by
  cases hu with
  | configured => exact ⟨rfl, rfl⟩
  | reset => exact PinSlot.reset_derived P
  | kept | written | latched => exact hx

/-- Only an event and the reset change a level, and they change both. -/
theorem SlotUpdate.prevIsLatched {P : Params} {p : Fin nPins} {x y : PinSlot} {i : Instr} (hu : SlotUpdate P p x i y)
    (hx : x.prevInputLevel = x.inputLevel) : y.prevInputLevel = y.inputLevel := by
  cases hu with
  | latched | reset => rfl
  | kept | configured | written => exact hx

section
variable {i : Instr} {s t : State} (h : exec i s = .next t)
include h

theorem exec_keeps_pinsDerived (hs : PinsDerived s) : PinsDerived t := by
  intro p
  rw [exec_params h]
  exact (exec_slotUpdate h p).derived (hs p)

theorem exec_keeps_prevIsLatched (hs : PrevIsLatched s) : PrevIsLatched t :=
  fun p => (exec_slotUpdate h p).prevIsLatched (hs p)

/-! ### The pin line and the filter register (rules R29, R51) -/

/-- An interrupting event sets a bit and the line, a write-1-to-clear lowers the line with the last bit, the reset clears
both, and no other operation changes either. -/
theorem exec_keeps_pinLineFollows (hs : PinLineFollows s) : PinLineFollows t := by
  obtain ⟨hhigh, hlow⟩ := hs
  rw [PinLineFollows, exec_params h]
  rcases exec_status_and_line_cases h with ⟨hst, hirq⟩ | ⟨p, level, rfl, hb, he⟩ | ⟨w, data, rfl⟩ | rfl
  · rw [hst, hirq]
    exact ⟨hhigh, hlow⟩
  · have ⟨b, hbit, hen, _⟩ := he
    rw [exec_pinEvSetInput_interrupts hb he] at h
    cases h
    have hmask : maskAt (s.params.edgeBit p) ≠ 0 := maskAt_ne_zero (v := s.pin.irqEnable) (hbit ▸ hen)
    exact ⟨fun _ => rfl, fun _ _ => or_ne_zero hmask⟩
  · rw [exec_pinWrEdgeStatus_eq] at h
    split at h <;> cases h
    next hc =>
      obtain ⟨-, hzero, -⟩ := hc
      exact ⟨fun hne => absurd hzero hne, nofun⟩
    next hc =>
      refine ⟨fun hne => hhigh fun h0 => hne ?_, fun hl hirq h0 => hc ⟨hl, h0, hirq⟩⟩
      simp [h0]
  · rw [exec_pinReset_eq] at h
    cases h
    exact ⟨fun hne => absurd rfl hne, nofun⟩

/-- Without `PIN_FILTER_WRITABLE` only the reset writes the register. -/
theorem exec_keeps_filterFixed (hs : FilterFixed s) : FilterFixed t := by
  intro hw
  rw [exec_params h] at hw
  rw [← hs hw]
  cases i with
  | pinWrFilterEnable w data =>
    simp only [exec, execPinWrFilterEnable, hw] at h
    cases h
    rfl
  | pinReset =>
    rw [exec_pinReset_eq] at h
    cases h
    exact (hs hw).symm
  | pinWrOut p w data =>
    rw [exec_pinWrOut_eq] at h
    dsimp only at h
    split at h <;> cases h <;> rfl
  | pinWrEdgeStatus w data =>
    rw [exec_pinWrEdgeStatus_eq] at h
    split at h <;> cases h <;> rfl
  | pinEvSetInput p level =>
    simp only [exec, execPinEvSetInput] at h
    split at h
    · cases h
      rfl
    · split at h <;> cases h <;> rfl
  | uartRdData | uartWrCtrl | uartWrData | uartEvReceive | uartReset => rw [(exec_other_controller h).2 rfl]
  | _ => cases h; rfl

end

/-! ### What an operation leaves in the serial controller (rule R38) -/

/-- The line recomputed (rule R200). -/
def uartRecomputed (P : Params) (u : UartState) : UartState := { u with irq := uartIrqCondition P u }

/-- The serial controller after a receive event that leaves a byte queued, before the line is recomputed (rule R201). -/
def rxReceived (P : Params) (bytes : List Byte) (u : UartState) : UartState :=
  { rxQueue bytes u with stat := u.stat ||| mask P.statRdrf }

/-- The serial controller after its reset (rule R204). -/
def uartResetFrom (P : Params) (u : UartState) : UartState :=
  { u with plain := P.uartReset, stat := statReset P, ctrl := 0, rxHead := 0, rxLen := 0, irq := false }

/-- The serial controllers an operation can leave where `u` stood (rules R167, R169, R177 to R186, R180, R181, R201,
R204). -/
inductive UartUpdate (P : Params) (u : UartState) : UartState → Prop
  | stored (r : PlainSlots) : UartUpdate P u { u with plain := r }
  | statRead : UartUpdate P u { u with stat := statRead P u }
  | statCleared (v : Word) : UartUpdate P u { u with stat := u.stat &&& ~~~(v &&& statW1cMask P) }
  | ctrlWritten (v : Word) : UartUpdate P u (uartRecomputed P { u with ctrl := v })
  | popped : 1 < u.rxLen → UartUpdate P u (fifoDrop u)
  | drained : u.rxLen = 1 → P.uartIrqUpdateOnDrain = false → UartUpdate P u (fifoDrain P u)
  | drainedAndRecomputed : u.rxLen = 1 → UartUpdate P u (uartRecomputed P (fifoDrain P u))
  | received (bytes : List Byte) : 0 < (rxQueue bytes u).rxLen →
      UartUpdate P u (uartRecomputed P (rxReceived P bytes u))
  | reset : UartUpdate P u (uartResetFrom P u)

theorem UartUpdate.kept (P : Params) (u : UartState) : UartUpdate P u u := .stored u.plain

/-- A receive event that leaves the FIFO empty has queued nothing. -/
theorem rxQueue_of_empty {bytes : List Byte} {u : UartState} (h : (rxQueue bytes u).rxLen = 0) :
    rxQueue bytes u = u := by
  rw [rxQueue_len] at h
  have hn : rxAccepted u bytes = 0 := by omega
  simp [rxQueue, hn, fifoPushAll]

/-- Every operation leaves one of these serial controllers. -/
theorem exec_uartUpdate {i : Instr} {s t : State} (h : exec i s = .next t) : UartUpdate s.params s.uart t.uart := by
  cases i with
  | uartRdStat => cases h; exact .statRead
  | uartWrStat v => cases h; exact .statCleared v
  | uartWrGlobal v | uartWrPincfg v | uartWrBaud v | uartWrMatch v | uartWrModir v | uartWrFifo v | uartWrWater v =>
    cases h
    exact .stored _
  | uartWrCtrl v =>
    cases h
    rw [answer_uart, uartIrqRecompute_uart]
    exact .ctrlWritten v
  | uartRdData =>
    rcases Nat.lt_trichotomy s.uart.rxLen 1 with hlen | hlen | hlen
    · cases (exec_uartRdData_of_empty (Nat.lt_one_iff.mp hlen)).symm.trans h
      exact .kept ..
    · cases (exec_uartRdData_of_one hlen).symm.trans h
      rw [uartReadReply_eq]
      split
      · rw [uartIrqRecompute_uart]
        exact .drainedAndRecomputed hlen
      next hkeep => exact .drained hlen (Bool.eq_false_iff.mpr hkeep)
    · cases (exec_uartRdData_of_one_lt hlen).symm.trans h
      exact .popped hlen
  | uartEvReceive bytes =>
    by_cases hre : bit s.uart.ctrl s.params.ctrlRe = true
    · cases (exec_uartEvReceive_of_re_set hre).symm.trans h
      rw [answer_uart]
      split
      next hpos =>
        rw [uartIrqRecompute_uart, mapUart_uart, rxQueue_stat]
        exact .received bytes hpos
      next hzero =>
        rw [mapUart_uart, rxQueue_of_empty (Nat.eq_zero_of_not_pos hzero)]
        exact .kept ..
    · cases (if_pos (Bool.eq_false_iff.mpr hre)).symm.trans h
      exact .kept ..
  | uartReset =>
    rw [exec_uartReset_eq] at h
    cases h
    exact .reset
  | uartWrData v =>
    simp only [exec, execUartWrData] at h
    split at h <;> cases h <;> exact .kept ..
  | pinWrFilterEnable | pinWrOut | pinEvSetInput | pinWrEdgeStatus | pinReset =>
    rw [(exec_other_controller h).1 rfl]
    exact .kept ..
  | _ => cases h; exact .kept ..

/-! ### STAT and the receive FIFO (rules R40, R49) -/

/-- What an update leaves in STAT is one of the values an operation can leave there. -/
theorem UartUpdate.statUpdate {P : Params} {u v : UartState} (hu : UartUpdate P u v) : StatUpdate P u v.stat := by
  cases hu with
  | stored | ctrlWritten | popped => exact .kept
  | statRead => exact .read
  | statCleared w => exact .cleared w
  | drained | drainedAndRecomputed => exact .drained
  | received => exact .received
  | reset => exact .reset

/-- A STAT write clears none of the three computed flags (rule R180). -/
theorem bit_stat_cleared {P : Params} (hwf : P.wf = true) {i : Nat}
    (hi : i = P.statTdre ∨ i = P.statTc ∨ i = P.statRdrf) (a v : Word) :
    bit (a &&& ~~~(v &&& statW1cMask P)) i = bit a i := by
  obtain ⟨hidle, hor, hnf, hfe, hpf⟩ := Params.w1c_ne hwf i hi
  have hlt : bit a i = true → i < 32 := bit_lt
  simpa [statW1cMask, bit_mask, hidle.symm, hor.symm, hnf.symm, hfe.symm, hpf.symm] using hlt

/-- The pop that empties the FIFO clears RDRF alone (rule R169). -/
theorem bit_stat_drained {P : Params} (a : Word) (i : Nat) :
    bit (a &&& ~~~(mask P.statRdrf)) i = (bit a i && !decide (i = P.statRdrf)) := by
  have hlt : bit a i = true → i < 32 := bit_lt
  rw [Bool.eq_iff_iff]
  simp only [bit_and, bit_not, bit_mask, Bool.and_eq_true, decide_eq_true_eq, Bool.not_eq_true', decide_eq_false_iff_not]
  grind

/-- STAT after reset has TDRE and TC set (rule R204). -/
theorem bit_statReset (P : Params) (i : Nat) :
    bit (statReset P) i = decide ((i = P.statTdre ∨ i = P.statTc) ∧ i < 32) := by
  rw [Bool.eq_iff_iff]
  simp only [statReset, bit_or, bit_mask, Bool.or_eq_true, decide_eq_true_eq]
  tauto

/-- No operation clears TC (rule R49). -/
theorem StatUpdate.tc {P : Params} {u : UartState} {v : Word} (hv : StatUpdate P u v) (hwf : P.wf = true)
    (hu : bit u.stat P.statTc = true) : bit v P.statTc = true := by
  obtain ⟨-, -, hrdrf, -, hlt, -⟩ := Params.stat_flags hwf
  cases hv with
  | kept => exact hu
  | read => simp [bit_statRead hwf, hrdrf]
  | cleared w => rw [bit_stat_cleared hwf (.inr (.inl rfl)), hu]
  | received => simp [hu]
  | drained => rw [bit_stat_drained, hu]; simp [hrdrf]
  | reset => simp [bit_statReset, hlt]

/-- No operation sets a bit of STAT that is none of the computed flags (rule R40). -/
theorem StatUpdate.other {P : Params} {u : UartState} {v : Word} (hv : StatUpdate P u v) (hwf : P.wf = true) {i : Nat}
    (htdre : i ≠ P.statTdre) (htc : i ≠ P.statTc) (hrdrf : i ≠ P.statRdrf) (hu : bit u.stat i = false) :
    bit v i = false := by
  cases hv with
  | kept => exact hu
  | read => simp [bit_statRead hwf, htdre, htc, hrdrf, hu]
  | cleared w => simp [hu]
  | received => simp [hu, bit_mask, hrdrf.symm]
  | drained => simp [hu]
  | reset => simp [bit_statReset, htdre, htc]

/-- RDRF tells whether the FIFO holds a byte (rule R49). -/
def RdrfFollows (P : Params) (u : UartState) : Prop := bit u.stat P.statRdrf = decide (0 < u.rxLen)

/-- RDRF is set with the first byte and cleared with the last. -/
theorem UartUpdate.rdrf {P : Params} {u v : UartState} (hu : UartUpdate P u v) (hwf : P.wf = true)
    (hr : RdrfFollows P u) : RdrfFollows P v := by
  obtain ⟨-, htdre, htc, -, -, hlt⟩ := Params.stat_flags hwf
  unfold RdrfFollows at hr ⊢
  cases hu with
  | stored | ctrlWritten => exact hr
  | statRead => simp [bit_statRead hwf]
  | statCleared w => rw [bit_stat_cleared hwf (.inr (.inr rfl)), hr]
  | popped hlen =>
    have hleft : 0 < u.rxLen - 1 := by omega
    simpa [fifoDrop, hleft, Nat.lt_of_succ_lt hlen] using hr
  | drained hlen | drainedAndRecomputed hlen =>
    have hclear : bit (u.stat &&& ~~~(mask P.statRdrf)) P.statRdrf = false := by simp [bit_stat_drained, -bit_and]
    have hempty : (fifoDrop u).rxLen = 0 := by simp [fifoDrop, hlen]
    exact hclear.trans (by simp [uartRecomputed, fifoDrain, hempty])
  | received bytes hpos =>
    have hset : bit (u.stat ||| mask P.statRdrf) P.statRdrf = true := by simp [bit_mask, hlt]
    exact hset.trans (decide_eq_true hpos).symm
  | reset => simp [uartResetFrom, bit_statReset, htdre.symm, htc.symm]

/-- A receive event queues no more than fits (rule R201). -/
theorem UartUpdate.rxLen_le {P : Params} {u v : UartState} (hu : UartUpdate P u v) (hl : u.rxLen ≤ rxCap) :
    v.rxLen ≤ rxCap := by
  cases hu with
  | stored | statRead | statCleared | ctrlWritten => exact hl
  | popped | drained | drainedAndRecomputed => exact (Nat.sub_le ..).trans hl
  | received bytes =>
    have hlen : (rxQueue bytes u).rxLen ≤ rxCap := by
      rw [rxQueue_len, rxAccepted]
      omega
    exact hlen
  | reset => exact Nat.zero_le _

/-- The state's part of rule R49. -/
theorem statFlags_iff {s : State} :
    StatFlags s ↔ RdrfFollows s.params s.uart ∧ bit s.uart.stat s.params.statTdre = true ∧
      bit s.uart.stat s.params.statTc = true ∧ s.uart.rxLen ≤ rxCap := Iff.rfl

/-- With the flags in step a STAT read finds what it would store (rules R49, R167). -/
theorem statRead_eq_stat {s : State} (hwf : s.params.wf = true) (hs : StatFlags s) :
    statRead s.params s.uart = s.uart.stat := by
  obtain ⟨hrdrf, htdre, htc, -⟩ := hs
  refine word_ext fun i _ => ?_
  rw [bit_statRead hwf]
  split
  next hi => rw [hi, hrdrf]
  · split
    next hi => rcases hi with rfl | rfl <;> simp [htdre, htc]
    · rfl

/-! ### The serial line (rules R229, R254, R257) -/

/-- A line that is exactly its condition follows it (rule R200). -/
theorem uartLineFollows_of_irq_eq {s : State} (h : s.uart.irq = uartIrqCondition s.params s.uart) :
    UartLineFollows s := by
  refine ⟨fun hc => h.trans hc, fun hirq => ?_, fun _ => h⟩
  have hc : uartIrqCondition s.params s.uart = true := h.symm.trans hirq
  simp only [uartIrqCondition, Bool.or_eq_true, Bool.and_eq_true] at hc
  exact hc.imp And.left And.left

/-- The condition reads CTRL and two bits of STAT. -/
theorem uartIrqCondition_congr {P : Params} {u v : UartState} (hctrl : v.ctrl = u.ctrl)
    (htdre : bit v.stat P.statTdre = bit u.stat P.statTdre) (hrdrf : bit v.stat P.statRdrf = bit u.stat P.statRdrf) :
    uartIrqCondition P v = uartIrqCondition P u := by
  simp only [uartIrqCondition, hctrl, htdre, hrdrf]

/-- Draining the FIFO cannot raise the condition. -/
theorem uartIrqCondition_of_fifoDrain {P : Params} {u : UartState}
    (h : uartIrqCondition P (fifoDrain P u) = true) : uartIrqCondition P u = true := by
  have hdrained (i : Nat) (hi : bit (fifoDrain P u).stat i = true) : bit u.stat i = true := by
    rw [fifoDrain, bit_and, Bool.and_eq_true] at hi
    exact hi.1
  simp only [uartIrqCondition, Bool.or_eq_true, Bool.and_eq_true] at h ⊢
  exact h.imp (And.imp_right (hdrained _)) (And.imp_right (hdrained _))

/-- Where the condition and CTRL stay, so does what the line follows. -/
theorem uartLineFollows_of_kept {s t : State} (hs : UartLineFollows s) (hparams : t.params = s.params)
    (hctrl : t.uart.ctrl = s.uart.ctrl) (hirq : t.uart.irq = s.uart.irq)
    (hcond : uartIrqCondition s.params t.uart = uartIrqCondition s.params s.uart) : UartLineFollows t := by
  rwa [UartLineFollows, hparams, hctrl, hirq, hcond]

/-- An operation recomputes the line, or leaves the condition, or is the drain without `UART_IRQ_UPDATE_ON_DRAIN`, which
can only lower the condition. -/
theorem exec_keeps_uartLineFollows {i : Instr} {s t : State} (h : exec i s = .next t) (hwf : s.params.wf = true)
    (hflags : StatFlags s) (hs : UartLineFollows s) : UartLineFollows t := by
  have hparams : t.params = s.params := exec_params h
  have hu : UartUpdate s.params s.uart t.uart := exec_uartUpdate h
  have hkept := uartLineFollows_of_kept (t := t) hs hparams
  have hrecomputed (v : UartState) (ht : t.uart = uartRecomputed s.params v) : UartLineFollows t :=
    uartLineFollows_of_irq_eq (by rw [ht, hparams]; rfl)
  generalize ht : t.uart = u at hu
  rw [ht] at hkept
  cases hu with
  | stored | popped => exact hkept rfl rfl rfl
  | statRead => exact hkept rfl rfl (by rw [statRead_eq_stat hwf hflags])
  | statCleared v =>
    exact hkept rfl rfl (uartIrqCondition_congr rfl (bit_stat_cleared hwf (.inl rfl) ..)
      (bit_stat_cleared hwf (.inr (.inr rfl)) ..))
  | ctrlWritten | drainedAndRecomputed | received => exact hrecomputed _ ht
  | drained hlen hkeep =>
    obtain ⟨hcond, henabled, -⟩ := hs
    rw [UartLineFollows, hparams, ht]
    exact ⟨fun hc => hcond (uartIrqCondition_of_fifoDrain hc), henabled, fun hp => by simp [hkeep] at hp⟩
  | reset => exact uartLineFollows_of_irq_eq (by rw [ht]; simp [uartResetFrom, uartIrqCondition])

/-! ### The invariant as a whole -/

/-- Every operation keeps every boundary invariant. -/
theorem exec_keeps_inv {i : Instr} {s t : State} (h : exec i s = .next t) (hs : s.Inv) : t.Inv := by
  have hparams : t.params = s.params := exec_params h
  have hu : UartUpdate s.params s.uart t.uart := exec_uartUpdate h
  obtain ⟨hrdrf, htdre, htc, hlen⟩ := statFlags_iff.mp hs.statFlags
  exact {
    params := hparams ▸ hs.params
    pinsDerived := exec_keeps_pinsDerived h hs.pinsDerived
    prevIsLatched := exec_keeps_prevIsLatched h hs.prevIsLatched
    pinLine := exec_keeps_pinLineFollows h hs.pinLine
    filterFixed := exec_keeps_filterFixed h hs.filterFixed
    statFlags := by
      rw [statFlags_iff, hparams]
      exact ⟨hu.rdrf hs.params hrdrf, hu.statUpdate.tdre hs.params htdre, hu.statUpdate.tc hs.params htc,
        hu.rxLen_le hlen⟩
    statOthers := fun i h1 h2 h3 => by
      rw [hparams] at h1 h2 h3
      exact hu.statUpdate.other hs.params h1 h2 h3 (hs.statOthers i h1 h2 h3)
    uartLine := exec_keeps_uartLineFollows h hs.params hs.statFlags hs.uartLine }

/-- The invariant reads the parameters and the two controllers. -/
theorem State.Inv.congr {s t : State} (hs : s.Inv) (hparams : t.params = s.params) (hpin : t.pin = s.pin)
    (huart : t.uart = s.uart) : t.Inv := by
  obtain ⟨P, c, u, l, e, r, q⟩ := s
  obtain ⟨P', c', u', l', e', r', q'⟩ := t
  obtain rfl : P' = P := hparams
  obtain rfl : c' = c := hpin
  obtain rfl : u' = u := huart
  exact ⟨hs.params, hs.pinsDerived, hs.prevIsLatched, hs.pinLine, hs.filterFixed, hs.statFlags, hs.statOthers,
    hs.uartLine⟩

/-- No step changes a parameter. -/
theorem step_params {s t : State} (h : step s = .next t) : t.params = s.params := by
  rcases step_cases h with ⟨-, rfl⟩ | ⟨r, rest, -, -, ⟨i, -, he⟩ | ⟨dev, dir, off, w, -, rfl⟩⟩
  · rfl
  · exact exec_params (s := { s with pending := rest }) he
  · rfl

/-- Settles O44: a step runs an operation, is idle or logs. -/
theorem stepKeepsTheParameters : Obligations.StepKeepsTheParameters := fun _ _ => step_params

/-- Settles O42: the operation behind the step keeps the invariant, and a step without one changes neither controller. -/
theorem stepKeepsTheInvariant : Obligations.StepKeepsTheInvariant := by
  intro s t hs h
  rcases step_runs_or_keeps h with ⟨i, rest, -, he⟩ | ⟨hpin, huart, -⟩
  · exact exec_keeps_inv he (hs.congr rfl rfl rfl)
  · exact hs.congr (step_params h) hpin huart

/-- Settles O40: the pins are reset pins, the lines are low, and STAT is its reset value with the FIFO empty. -/
theorem resetStateMeetsTheInvariant : Obligations.ResetStateMeetsTheInvariant := by
  have hwf : State.reset.params.wf = true := by decide
  have hslot (p : Fin nPins) : State.reset.pin.slot p = PinSlot.reset := reset_slot p
  exact {
    params := hwf
    pinsDerived := fun p => by
      rw [hslot]
      exact PinSlot.reset_derived _
    prevIsLatched := fun p => by
      rw [hslot]
      rfl
    pinLine := ⟨fun hne => absurd rfl hne, nofun⟩
    filterFixed := fun _ => rfl
    statFlags := by
      unfold StatFlags
      decide
    statOthers := fun i htdre htc _ => by
      rw [show State.reset.uart.stat = statReset State.reset.params from rfl, bit_statReset]
      simp [htdre, htc]
    uartLine := uartLineFollows_of_irq_eq (by decide) }

end Sys2Proof.Machine
end

section
/-! Proofs for what a step may touch and emit: input levels (rule R33), the other controller (rules R71, R238), the log and
the exit trace (rules R47, R48), the exit points (rules R144, R203) and the reads (rule R69). -/

namespace Sys2Proof.Machine

/-! ### Input levels (rule R33) -/

/-- Settles O48: of the slots an operation can leave, two have another input level. -/
theorem inputLevelsChangeOnlyByEvents : Obligations.InputLevelsChangeOnlyByEvents := by
  intro s t p h hne
  rcases step_runs_or_keeps h with ⟨i, rest, hi, he⟩ | ⟨hpin, -, -⟩
  · have hu : SlotUpdate s.params p (s.pin.slot p) i (t.pin.slot p) := exec_slotUpdate he p
    generalize t.pin.slot p = y at hu hne
    cases hu with
    | latched level hibe => exact .inl ⟨hi, hibe⟩
    | reset => exact .inr hi
    | kept | configured | written => exact absurd rfl hne
  · exact absurd (by rw [hpin]) hne

/-! ### The other controller (rules R71, R238) -/

/-- Settles O49: the operation behind the step is for the controller its request names. -/
theorem controllersDoNotTouchEachOther : Obligations.ControllersDoNotTouchEachOther := by
  intro s t r rest hp h
  rcases step_cases h with ⟨-, rfl⟩ | ⟨r', rest', hp', -, ⟨i, hd, he⟩ | ⟨dev, dir, off, w, -, rfl⟩⟩
  · exact ⟨fun _ => rfl, fun _ => rfl⟩
  · obtain ⟨rfl, -⟩ : r' = r ∧ rest' = rest := by simpa [hp'] using hp
    rw [← instrDev_decode hd]
    exact exec_other_controller (s := { s with pending := rest' }) he
  · exact ⟨fun _ => rfl, fun _ => rfl⟩

/-! ### The log and the exit trace (rules R47, R48) -/

/-- Settles O51: an operation logs one record or emits at most one event, and a wrong width logs one record. -/
theorem logAndTraceOnlyGrow : Obligations.LogAndTraceOnlyGrow := by
  intro s t h
  rcases step_cases h with ⟨-, rfl⟩ | ⟨r, rest, -, -, ⟨i, -, he⟩ | ⟨dev, dir, off, w, -, rfl⟩⟩
  · exact ⟨[], [], by simp⟩
  · rcases exec_output he with ⟨hlog, htrace | ⟨e, htrace⟩⟩ | ⟨d, hlog, htrace, -⟩
    · exact ⟨[], [], by simp [hlog, htrace]⟩
    · exact ⟨[], [e], by simp [hlog, htrace]⟩
    · exact ⟨[d], [], by simp [hlog, htrace]⟩
  · exact ⟨[⟨dev, .invalidWidth, .access dir off w⟩], [], by simp [rejectAccess_eq]⟩

/-! ### The exit points (rules R144, R203) -/

/-- What an operation adds to the exit trace of `s`. -/
inductive Emission (s : State) : Instr → List ExitEvent → Prop
  | silent (i : Instr) : Emission s i []
  | line (i : Instr) (dev : Dev) (level : Bool) : Emission s i [.setIrq dev level]
  | driven (p : Fin nPins) (w : Width) (data : Word) : (s.pin.slot p).direction = .output →
      Emission s (.pinWrOut p w data) [.drivePin p (data.getLsbD 0)]
  | transmitted (v : Word) : bit s.uart.ctrl s.params.ctrlTe = true →
      Emission s (.uartWrData v) [.transmitByte (lowByte v)]

/-- The exit trace of `t` is that of `s` and what the operation emits. -/
def EmitsTo (s : State) (i : Instr) (t : State) : Prop := ∃ es, Emission s i es ∧ t.trace = s.trace ++ es

theorem EmitsTo.of_silent {s t : State} {i : Instr} (h : t.trace = s.trace) : EmitsTo s i t :=
  ⟨[], .silent i, by simp [h]⟩

/-- A recomputation tells the line or is silent (rule R200). -/
theorem EmitsTo.of_recompute {s u : State} {i : Instr} {r : Reply} (h : u.trace = s.trace) :
    EmitsTo s i ((uartIrqRecompute u).answer r) := by
  rw [uartIrqRecompute_eq]
  unfold EmitsTo
  split
  · exact ⟨[], .silent i, by simp [h]⟩
  · exact ⟨_, .line i .uart _, by rw [answer_trace, h]⟩

/-- Every operation emits one of these. -/
theorem exec_emitsTo {i : Instr} {s t : State} (h : exec i s = .next t) : EmitsTo s i t := by
  cases i with
  | pinWrOut p w data =>
    rw [exec_pinWrOut_eq] at h
    dsimp only at h
    split at h <;> cases h
    next hc => exact ⟨_, .driven p w data hc.1, rfl⟩
    · exact .of_silent rfl
  | uartWrData v =>
    simp only [exec, execUartWrData] at h
    split at h <;> cases h
    next hte => exact ⟨_, .transmitted v hte, rfl⟩
    · exact .of_silent rfl
  | pinWrEdgeStatus w data =>
    rw [exec_pinWrEdgeStatus_eq] at h
    split at h <;> cases h
    · exact ⟨_, .line _ .pin false, rfl⟩
    · exact .of_silent rfl
  | pinEvSetInput p level =>
    by_cases he : edgeInterrupts s p level
    · cases hibe : (s.pin.slot p).ibe
      · rw [exec_pinEvSetInput_off hibe] at h
        cases h
        exact .of_silent rfl
      · rw [exec_pinEvSetInput_interrupts hibe he] at h
        cases h
        exact ⟨_, .line _ .pin true, rfl⟩
    · exact .of_silent (exec_pinEvSetInput_silent he h).2.2
  | pinReset | uartReset =>
    cases h
    split
    · exact ⟨_, .line _ _ false, rfl⟩
    · exact .of_silent rfl
  | uartWrCtrl v => cases h; exact .of_recompute rfl
  | uartRdData =>
    rcases Nat.lt_trichotomy s.uart.rxLen 1 with hlen | hlen | hlen
    · cases (exec_uartRdData_of_empty (Nat.lt_one_iff.mp hlen)).symm.trans h
      exact .of_silent rfl
    · cases (exec_uartRdData_of_one hlen).symm.trans h
      split
      · exact .of_recompute rfl
      · exact .of_silent rfl
    · cases (exec_uartRdData_of_one_lt hlen).symm.trans h
      exact .of_silent rfl
  | uartEvReceive bytes =>
    by_cases hre : bit s.uart.ctrl s.params.ctrlRe = true
    · cases (exec_uartEvReceive_of_re_set hre).symm.trans h
      split
      · exact .of_recompute rfl
      · exact .of_silent rfl
    · cases (if_pos (Bool.eq_false_iff.mpr hre)).symm.trans h
      exact .of_silent rfl
  | pinWrFilterEnable w data =>
    simp only [exec, execPinWrFilterEnable] at h
    split at h <;> cases h <;> exact .of_silent rfl
  | _ => cases h; exact .of_silent rfl

/-- A step that adds to the trace performs the operation that emits what is added. -/
theorem step_emission {s t : State} (h : step s = .next t) {e : ExitEvent} (he : t.trace = s.trace ++ [e]) :
    ∃ i rest, s.performs i ∧ exec i { s with pending := rest } = .next t ∧
      Emission { s with pending := rest } i [e] := by
  rcases step_runs_or_keeps h with ⟨i, rest, hi, hx⟩ | ⟨-, -, htrace⟩
  · obtain ⟨es, hes, htrace⟩ := exec_emitsTo hx
    obtain rfl : es = [e] := List.append_cancel_left (htrace.symm.trans he)
    exact ⟨i, rest, hi, hx, hes⟩
  · simp [htrace] at he

/-- Settles O53: of what an operation can emit, two are a pin's level and a byte. -/
theorem pinsAndBytesLeaveOnlyOnTheirWrites : Obligations.PinsAndBytesLeaveOnlyOnTheirWrites := by
  intro s t h
  refine ⟨fun p level htrace => ?_, fun b htrace => ?_⟩
  · obtain ⟨i, rest, hi, hx, hes⟩ := step_emission h htrace
    cases hes with
    | driven _ w data hout => exact ⟨w, data, hi, hout, rfl, by simp [slot_of_exec_pinWrOut hx]⟩
  · obtain ⟨i, rest, hi, -, hes⟩ := step_emission h htrace
    cases hes with
    | transmitted v hte => exact ⟨v, hi, hte, rfl⟩

/-! ### Reads (rule R69) -/

/-- The state keeps both controllers and the exit trace of another. -/
def KeepsControllers (s t : State) : Prop := t.pin = s.pin ∧ t.uart = s.uart ∧ t.trace = s.trace

/-- A pin read, invalid or not, changes neither controller. -/
theorem exec_pinReadInstr_keeps {off : Word} {w : Width} {o : Option PinTarget} {s t : State}
    (h : exec (pinReadInstr off w o) s = .next t) : KeepsControllers s t := by
  cases o with
  | some target =>
    rw [exec_pinReadInstr_some] at h
    cases h
    exact ⟨rfl, rfl, rfl⟩
  | none =>
    cases h
    exact ⟨rfl, rfl, rfl⟩

/-- With the STAT flags in step, a serial read other than a DATA read, invalid or not, changes neither controller. -/
theorem exec_uartReadInstr_keeps {off : Word} {o : Option Slot} {s t : State} (hwf : s.params.wf = true)
    (hflags : StatFlags s) (hdata : o ≠ some .data) (h : exec (uartReadInstr off o) s = .next t) :
    KeepsControllers s t := by
  cases o with
  | none =>
    cases h
    exact ⟨rfl, rfl, rfl⟩
  | some slot =>
    cases slot with
    | data => exact absurd rfl hdata
    | stat =>
      cases h
      refine ⟨rfl, ?_, rfl⟩
      simp [uartReadReply, statRead_eq_stat hwf hflags]
    | _ =>
      cases h
      exact ⟨rfl, rfl, rfl⟩

/-- Settles O54: the request of a read decodes to a read operation, and the STAT read finds its flags in step. -/
theorem readsOtherThanDataChangeNothing : Obligations.ReadsOtherThanDataChangeNothing := by
  intro s t dev off w rest hs hp h hdata
  rcases step_cases h with ⟨-, rfl⟩ | ⟨r, rest', hp', -, ⟨i, hd, he⟩ | ⟨dev', dir, off', w', -, rfl⟩⟩
  · exact ⟨rfl, rfl, rfl⟩
  · obtain ⟨rfl, rfl⟩ : r = .mmioR dev off w ∧ rest' = rest := by simpa [hp'] using hp
    rw [performs_iff_decode hp, hd] at hdata
    cases dev with
    | pin =>
      obtain ⟨wd, -, -, rfl⟩ := decodePinAccess_instr hd
      exact exec_pinReadInstr_keeps (s := { s with pending := rest' }) he
    | uart =>
      obtain ⟨-, -, rfl⟩ := decodeUartAccess_instr hd
      refine exec_uartReadInstr_keeps (s := { s with pending := rest' }) hs.params hs.statFlags (fun ho => hdata ?_) he
      rw [ho]
      rfl
  · exact ⟨rfl, rfl, rfl⟩

end Sys2Proof.Machine
end

section
/-! Proof that a request's effect does not depend on the other controller (rules R71, R238): an operation on a state
placed in other surroundings ends in the state it ends in without them, placed there. -/

namespace Sys2Proof.Machine

/-! ### Surroundings -/

/-- The state `c` with the parameters and the one controller of `s`, and with the log and the exit trace of `s` behind
its own: `c` is the surroundings of an operation for that controller. -/
def State.around (c : State) (dev : Dev) (s : State) : State where
  params  := s.params
  pin     := match dev with
    | .pin  => s.pin
    | .uart => c.pin
  uart    := match dev with
    | .pin  => c.uart
    | .uart => s.uart
  log     := c.log ++ s.log
  trace   := c.trace ++ s.trace
  reply   := c.reply
  pending := c.pending

/-- The outcome of an operation in surroundings: what it returns is its own. -/
def State.answerAround (c : State) (dev : Dev) (t : State) : State := (c.around dev t).answer t.reply

/-- A state that agrees with `s` on its controller is itself, around `s` with nothing logged or emitted. -/
theorem around_eq_self {c s : State} {dev : Dev} (hparams : c.params = s.params) (hpin : dev = .pin → c.pin = s.pin)
    (huart : dev = .uart → c.uart = s.uart) : c.around dev { s with log := [], trace := [] } = c := by
  cases dev
  · simp [State.around, ← hparams, ← hpin rfl]
  · simp [State.around, ← hparams, ← huart rfl]

section
variable (c s : State)

theorem mapPin_around (f : PinState → PinState) : (c.around .pin s).mapPin f = c.around .pin (s.mapPin f) := rfl

theorem mapUart_around (f : UartState → UartState) : (c.around .uart s).mapUart f = c.around .uart (s.mapUart f) := rfl

theorem emit_around (dev : Dev) (e : ExitEvent) : (c.around dev s).emit e = c.around dev (s.emit e) := by
  simp [State.around, State.emit]

/-- An operation that ends in a diagnostic adds the same record in both. -/
theorem answer_raise_around (dev d : Dev) (kind : DiagKind) (info : DiagInfo) (r : Reply) :
    ((c.around dev s).raise d kind info).answer r = c.answerAround dev ((s.raise d kind info).answer r) := by
  simp [State.answerAround, State.around, State.answer, State.raise]

/-- Whether a write-1-to-clear lowers the pin line depends on nothing of the surroundings. -/
theorem pinIrqAfterClear_around : pinIrqAfterClear (c.around .pin s) = c.around .pin (pinIrqAfterClear s) := by
  have hparams : (c.around .pin s).params = s.params := rfl
  have hpin : (c.around .pin s).pin = s.pin := rfl
  unfold pinIrqAfterClear
  rw [hparams, hpin, mapPin_around, emit_around]
  split <;> rfl

/-- Nor does the level a recomputation gives the serial line. -/
theorem uartIrqRecompute_around : uartIrqRecompute (c.around .uart s) = c.around .uart (uartIrqRecompute s) := by
  have hparams : (c.around .uart s).params = s.params := rfl
  have huart : (c.around .uart s).uart = s.uart := rfl
  unfold uartIrqRecompute
  rw [hparams, huart]
  dsimp only
  rw [mapUart_around, emit_around]
  split <;> rfl

end

/-- An outcome in surroundings that emits may have its exit trace compared by itself. -/
theorem eq_answerAround {c x t : State} {dev : Dev}
    (h : { x with trace := c.trace ++ t.trace } = c.answerAround dev t) (htrace : x.trace = c.trace ++ t.trace) :
    x = c.answerAround dev t := by
  rw [← h, ← htrace]

theorem append_ite_snoc (b : Bool) (before trace : List ExitEvent) (e : ExitEvent) :
    (if b then before ++ trace ++ [e] else before ++ trace) = before ++ if b then trace ++ [e] else trace := by
  cases b <;> simp

/-- An operation for a controller runs in any surroundings as it runs without them. -/
theorem exec_around {i : Instr} {s t : State} (h : exec i s = .next t) (c : State) :
    exec i (c.around (instrDev i) s) = .next (c.answerAround (instrDev i) t) := by
  cases i with
  | pinRdInvalid | pinWrId0 | pinWrId1 | pinWrIn | pinWrInvalid | pinEvInvalidPin | uartRdInvalid | uartWrInvalid =>
    cases h
    exact congrArg Host.Outcome.next (answer_raise_around ..)
  | pinWrFilterEnable w data =>
    by_cases hw : s.params.pinFilterWritable = true
    · cases (if_pos hw).symm.trans h
      exact if_pos hw
    · cases (if_neg hw).symm.trans h
      exact (if_neg hw).trans (congrArg Host.Outcome.next (answer_raise_around ..))
  | pinWrOut p w data =>
    rw [exec_pinWrOut_eq] at h ⊢
    dsimp only at h ⊢
    split at h
    next hc =>
      cases h
      exact (if_pos hc).trans (congrArg Host.Outcome.next (eq_answerAround rfl (List.append_assoc ..)))
    next hc =>
      cases h
      exact if_neg hc
  | pinEvSetInput p level =>
    cases hibe : (s.pin.slot p).ibe
    · rw [exec_pinEvSetInput_off hibe] at h
      cases h
      exact exec_pinEvSetInput_off (s := c.around .pin s) hibe
    · by_cases he : edgeInterrupts s p level
      · rw [exec_pinEvSetInput_interrupts hibe he] at h
        cases h
        refine (exec_pinEvSetInput_interrupts (s := c.around .pin s) hibe he).trans (congrArg Host.Outcome.next ?_)
        exact eq_answerAround rfl (List.append_assoc ..)
      · rw [exec_pinEvSetInput_latches hibe he] at h
        cases h
        exact exec_pinEvSetInput_latches (s := c.around .pin s) hibe he
  | pinWrEdgeStatus w data =>
    cases h
    exact congrArg (Host.Outcome.next <| State.answer · .none) (pinIrqAfterClear_around c
      (s.mapPin fun c => { c with edgeStatus := c.edgeStatus &&& ~~~(lowBytes w data) }))
  | pinReset =>
    rw [exec_pinReset_eq] at h ⊢
    cases h
    exact congrArg Host.Outcome.next (eq_answerAround rfl (append_ite_snoc ..))
  | uartReset =>
    rw [exec_uartReset_eq] at h ⊢
    cases h
    exact congrArg Host.Outcome.next (eq_answerAround rfl (append_ite_snoc ..))
  | uartWrCtrl v =>
    cases h
    exact congrArg (Host.Outcome.next <| State.answer · .none) (uartIrqRecompute_around c
      (s.mapUart fun u => { u with ctrl := v }))
  | uartWrData v =>
    by_cases hte : bit s.uart.ctrl s.params.ctrlTe = true
    · cases (if_pos hte).symm.trans h
      exact (if_pos hte).trans (congrArg Host.Outcome.next (eq_answerAround rfl (List.append_assoc ..)))
    · cases (if_neg hte).symm.trans h
      exact if_neg hte
  | uartRdData =>
    rcases Nat.lt_trichotomy s.uart.rxLen 1 with hlen | hlen | hlen
    · cases (exec_uartRdData_of_empty (Nat.lt_one_iff.mp hlen)).symm.trans h
      exact exec_uartRdData_of_empty (s := c.around .uart s) (Nat.lt_one_iff.mp hlen)
    · cases (exec_uartRdData_of_one hlen).symm.trans h
      refine (exec_uartRdData_of_one (s := c.around .uart s) hlen).trans (congrArg Host.Outcome.next ?_)
      rw [mapUart_around, uartIrqRecompute_around]
      exact (congrArg (State.answer · _) (apply_ite (c.around .uart) ..).symm)
    · cases (exec_uartRdData_of_one_lt hlen).symm.trans h
      exact exec_uartRdData_of_one_lt (s := c.around .uart s) hlen
  | uartEvReceive bytes =>
    by_cases hre : bit s.uart.ctrl s.params.ctrlRe = true
    · cases (exec_uartEvReceive_of_re_set hre).symm.trans h
      refine (exec_uartEvReceive_of_re_set (s := c.around .uart s) hre).trans (congrArg Host.Outcome.next ?_)
      rw [mapUart_around, mapUart_around, uartIrqRecompute_around]
      exact (congrArg (State.answer · _) (apply_ite (c.around .uart) ..).symm)
    · cases (if_pos (Bool.eq_false_iff.mpr hre)).symm.trans h
      exact if_pos (Bool.eq_false_iff.mpr hre)
  | _ => cases h; rfl

/-! ### From an operation to the step -/

/-- What a request leaves in two states that agree on the controller it is for: that controller, the reply, and what is
added to the log and the exit trace are the same. -/
def SameEffect (dev : Dev) (s t s' t' : State) : Prop :=
  t'.reply = t.reply ∧ (dev = .pin → t'.pin = t.pin) ∧ (dev = .uart → t'.uart = t.uart) ∧
  ∃ records events, t.log = s.log ++ records ∧ t'.log = s'.log ++ records ∧
    t.trace = s.trace ++ events ∧ t'.trace = s'.trace ++ events

/-- Two outcomes of one operation, each in its own surroundings, differ only in these. -/
theorem sameEffect_answerAround (dev : Dev) (c c' t : State) :
    SameEffect dev c (c.answerAround dev t) c' (c'.answerAround dev t) :=
  ⟨rfl, by rintro rfl; rfl, by rintro rfl; rfl, t.log, t.trace, rfl, rfl, rfl, rfl⟩

/-- An operation has the same effect in two states that agree on its controller: each is the surroundings of one state
with an empty log and an empty exit trace. -/
theorem exec_sameEffect {i : Instr} {s s' t : State} (hparams : s'.params = s.params)
    (hpin : instrDev i = .pin → s'.pin = s.pin) (huart : instrDev i = .uart → s'.uart = s.uart)
    (h : exec i s = .next t) :
    ∃ t', exec i s' = .next t' ∧ SameEffect (instrDev i) s t s' t' := by
  have ⟨t₀, h₀⟩ := exec_completes i { s with log := [], trace := [] }
  have hs : exec i s = .next (s.answerAround (instrDev i) t₀) := by
    rw [← exec_around h₀, around_eq_self rfl (fun _ => rfl) (fun _ => rfl)]
  have hs' : exec i s' = .next (s'.answerAround (instrDev i) t₀) := by
    rw [← exec_around h₀, around_eq_self hparams hpin huart]
  obtain rfl : s.answerAround (instrDev i) t₀ = t := by simpa [h] using hs.symm
  exact ⟨_, hs', sameEffect_answerAround ..⟩

/-- Settles O50: both states decode the request alike, to an operation for the controller it names or to a wrong width,
which only logs. -/
theorem controllersDoNotSeeEachOther : Obligations.ControllersDoNotSeeEachOther := by
  intro s s' t r rest rest' hparams hp hp' h hpin huart
  rcases step_cases h with ⟨hnil, -⟩ | ⟨r₁, rest₁, hp₁, hwf, hdone⟩
  · simp [hp] at hnil
  obtain ⟨rfl, rfl⟩ : r₁ = r ∧ rest₁ = rest := by simpa [hp₁] using hp
  have hwf' : s'.params.wf = true := hparams ▸ hwf
  rcases hdone with ⟨i, hd, he⟩ | ⟨dev, dir, off, w, hd, rfl⟩
  · rw [← instrDev_decode hd] at hpin huart ⊢
    rw [step_of_decode_instr hp' hwf' (hparams ▸ hd)]
    exact exec_sameEffect (s := { s with pending := rest₁ }) (s' := { s' with pending := rest' }) hparams hpin huart he
  · rw [step_of_decode_invalidWidth hp' hwf' (hparams ▸ hd)]
    exact ⟨_, rfl, rfl, hpin, huart, _, [], rfl, rfl, by simp [rejectAccess_eq], by simp [rejectAccess_eq]⟩

end Sys2Proof.Machine
end

section
/-! Proofs for the receive FIFO: it is a queue (rules R44, R201, R205), and what is received is read back in order. -/

namespace Sys2Proof.Machine

/-! ### DATA reads -/

@[simp] theorem fifoContents_fifoDrain (P : Params) (u : UartState) :
    fifoContents (fifoDrain P u) = fifoContents (fifoDrop u) := rfl

/-- Rules R169, R205: a DATA read takes the oldest byte, whether or not it is the last. -/
theorem exec_uartRdData_takes {s t : State} {b : Byte} {bs : List Byte} (hq : fifoContents s.uart = b :: bs)
    (h : exec .uartRdData s = .next t) : t.reply = .word (byteWord b) ∧ fifoContents t.uart = bs := by
  have hlen : s.uart.rxLen = bs.length + 1 := by rw [← fifoContents_length, hq, List.length_cons]
  rw [fifoContents_eq_cons s.uart (by omega)] at hq
  obtain ⟨rfl, rfl⟩ := List.cons.inj hq
  by_cases hlast : s.uart.rxLen = 1
  · cases (exec_uartRdData_of_one hlast).symm.trans h
    refine ⟨rfl, ?_⟩
    rw [uartReadReply_eq]
    split <;> simp
  · cases (exec_uartRdData_of_one_lt (by omega)).symm.trans h
    exact ⟨rfl, rfl⟩

/-- A DATA read leaves the queue without its head; of an empty queue there is none (rule R169). -/
theorem fifoContents_of_exec_uartRdData {s t : State} (h : exec .uartRdData s = .next t) :
    fifoContents t.uart = (fifoContents s.uart).tail := by
  cases hq : fifoContents s.uart with
  | nil =>
    have hlen : s.uart.rxLen = 0 := by rw [← fifoContents_length, hq, List.length_nil]
    cases (exec_uartRdData_of_empty hlen).symm.trans h
    exact hq
  | cons b bs => exact (exec_uartRdData_takes hq h).2

/-! ### The receive event -/

/-- With RE set the bytes that fit stand behind those queued (rule R201). -/
theorem fifoContents_of_exec_uartEvReceive {bytes : List Byte} {s t : State}
    (hre : bit s.uart.ctrl s.params.ctrlRe = true) (hcap : s.uart.rxLen ≤ rxCap)
    (h : exec (.uartEvReceive bytes) s = .next t) :
    fifoContents t.uart = fifoContents s.uart ++ bytes.take (rxCap - s.uart.rxLen) := by
  have hqueue : fifoContents t.uart = fifoContents (rxQueue bytes s.uart) := by
    cases (exec_uartEvReceive_of_re_set hre).symm.trans h
    rw [answer_uart]
    split
    · exact uartIrqRecompute_fifo _
    · rfl
  rw [hqueue, rxQueue_contents hcap, rxAccepted, Nat.min_comm, ← List.take_eq_take_min]

/-- Settles O29: the three operations that touch the queue, and the others leave the FIFO's fields. -/
theorem receiveFifoRefinesAQueue : Obligations.ReceiveFifoRefinesAQueue := by
  intro i s t hcap h
  cases i with
  | uartEvReceive bytes =>
    dsimp only
    rw [fifoContents_length]
    split
    next hre => exact fifoContents_of_exec_uartEvReceive hre hcap h
    next hre =>
      cases (if_pos (Bool.eq_false_iff.mpr hre)).symm.trans h
      rfl
  | uartRdData => exact fifoContents_of_exec_uartRdData h
  | uartReset =>
    rw [exec_uartReset_eq] at h
    cases h
    rfl
  | uartWrCtrl v =>
    cases h
    simp only [answer_uart, uartIrqRecompute_fifo]
    rfl
  | uartWrData v =>
    simp only [exec, execUartWrData] at h
    split at h <;> cases h <;> rfl
  | pinWrFilterEnable | pinWrOut | pinEvSetInput | pinWrEdgeStatus | pinReset =>
    simp only
    rw [(exec_other_controller h).1 rfl]
  | _ => cases h; rfl

/-! ### Received bytes in order -/

/-- The step that performs a DATA read takes the oldest byte, keeps the parameters and goes on to the next request. -/
theorem step_takes_oldest_byte {s : State} {b : Byte} {bs : List Byte} {rest : List Request}
    (hwf : s.params.wf = true) (hq : fifoContents s.uart = b :: bs) (hp : s.pending = .mmioR .uart 0x1C 4 :: rest) :
    ∃ t, step s = .next t ∧ t.params = s.params ∧ t.pending = rest ∧ t.reply = .word (byteWord b) ∧
      fifoContents t.uart = bs := by
  have hd : decode s.params (.mmioR .uart 0x1C 4) = .instr .uartRdData := decodeUartAccess_slot .data .read _
  obtain ⟨t, ht⟩ := exec_completes .uartRdData { s with pending := rest }
  obtain ⟨hreply, hleft⟩ := exec_uartRdData_takes (s := { s with pending := rest }) hq ht
  exact ⟨t, (step_of_decode_instr hp hwf hd).trans ht, exec_params (s := { s with pending := rest }) ht, exec_pending ht,
    hreply, hleft⟩

/-- A run of DATA reads takes the queued bytes in order. -/
theorem run_takes_bytes_in_order (k : Nat) : ∀ (s : State) (bytes : List Byte) (hk : k < bytes.length),
    s.params.wf = true → fifoContents s.uart = bytes → s.pending = List.replicate (k + 1) (.mmioR .uart 0x1C 4) →
    ∃ t, Sys2Proof.core.run (k + 1) s = .next t ∧ t.reply = .word (byteWord bytes[k]) ∧
      fifoContents t.uart = bytes.drop (k + 1) := by
  induction k with
  | zero =>
    intro s bytes hk hwf hq hp
    cases bytes with
    | nil => simp at hk
    | cons b bs =>
      obtain ⟨t, hstep, -, -, hreply, hleft⟩ := step_takes_oldest_byte hwf hq hp
      exact ⟨t, run_succ hstep, hreply, hleft⟩
  | succ k ih =>
    intro s bytes hk hwf hq hp
    cases bytes with
    | nil => simp at hk
    | cons b bs =>
      obtain ⟨u, hstep, hparams, hpending, -, hleft⟩ := step_takes_oldest_byte hwf hq hp
      obtain ⟨t, hrun, ht⟩ := ih u bs (Nat.lt_of_succ_lt_succ hk) (hparams ▸ hwf) hleft hpending
      exact ⟨t, (run_succ hstep).trans hrun, ht⟩

/-- The step that performs a receive event with RE set on an empty FIFO queues bytes that fit, keeps the parameters and
goes on to the next request. -/
theorem step_queues_received_bytes {s : State} {bytes : List Byte} {rest : List Request} (hwf : s.params.wf = true)
    (hre : bit s.uart.ctrl s.params.ctrlRe = true) (hempty : s.uart.rxLen = 0) (hcap : bytes.length ≤ rxCap)
    (hp : s.pending = .rxEv bytes :: rest) :
    ∃ t, step s = .next t ∧ t.params = s.params ∧ t.pending = rest ∧ fifoContents t.uart = bytes := by
  obtain ⟨t, ht⟩ := exec_completes (.uartEvReceive bytes) { s with pending := rest }
  refine ⟨t, (step_of_decode_instr hp hwf rfl).trans ht, exec_params (s := { s with pending := rest }) ht,
    exec_pending ht, ?_⟩
  have hnone : fifoContents s.uart = [] := List.eq_nil_of_length_eq_zero ((fifoContents_length _).trans hempty)
  have hfit : bytes.take (rxCap - s.uart.rxLen) = bytes := List.take_of_length_le (by omega)
  have hqueue := fifoContents_of_exec_uartEvReceive (s := { s with pending := rest }) hre (by simp [hempty]) ht
  rwa [hnone, hfit, List.nil_append] at hqueue

/-- Settles O30: all the bytes fit the empty FIFO, so the event queues them, and the reads take them in order. -/
theorem receivedBytesAreReadInOrder : Obligations.ReceivedBytesAreReadInOrder := by
  intro bytes k s hk hwf hre hempty hcap hp
  obtain ⟨t, hstep, hparams, hpending, hqueue⟩ := step_queues_received_bytes hwf hre hempty hcap hp
  obtain ⟨r, hrun, hr⟩ := run_takes_bytes_in_order k t bytes hk (hparams ▸ hwf) hqueue hpending
  exact ⟨r, (run_succ hstep).trans hrun, hr⟩

/-! ### The capacity -/

/-- With RE set a receive event answers how many bytes fit, and queues that many (rule R201). -/
theorem count_of_exec_uartEvReceive {bytes : List Byte} {s t : State} (hre : bit s.uart.ctrl s.params.ctrlRe = true)
    (h : exec (.uartEvReceive bytes) s = .next t) :
    t.reply = .count (rxAccepted s.uart bytes) ∧ t.uart.rxLen = s.uart.rxLen + rxAccepted s.uart bytes := by
  cases (exec_uartEvReceive_of_re_set hre).symm.trans h
  refine ⟨rfl, ?_⟩
  rw [answer_uart]
  split <;> simp

/-- Settles O60: the announced capacity is the free space, of which the event uses what it accepts. -/
theorem acceptedBytesUseUpTheCapacity : Obligations.AcceptedBytesUseUpTheCapacity := by
  intro bytes s t capacity hre hcap hquery h
  obtain ⟨hreply, hlen⟩ := count_of_exec_uartEvReceive hre h
  obtain rfl : rxCap - s.uart.rxLen = capacity := by
    simpa using congrArg State.reply (Host.Outcome.next.inj ((capacityQueryGivesTheFreeSpace s).symm.trans hquery))
  refine ⟨hreply, (capacityQueryGivesTheFreeSpace t).trans ?_⟩
  rw [hlen, rxAccepted, ← Nat.sub_sub]

end Sys2Proof.Machine
end

section
/-! Proofs for the parameters, the decoder and the step: rule R7, the round trips of rules R80 and R83 to R88, the offsets
that select nothing (rules R86, R122, R123, R174, R187), and the requests that complete (rules R88, R224). -/

namespace Sys2Proof.Laws.RoundTrip

/-- The round trip of every operation, from the operations' own. -/
theorem statement_of_instr : ∀ i : Instr, Statement i
  | .pinRdId0 w => pinRdId0 w
  | .pinRdId1 w => pinRdId1 w
  | .pinRdEdgeStatus w => pinRdEdgeStatus w
  | .pinRdIrqEnable w => pinRdIrqEnable w
  | .pinRdEdgeTypeSelect w => pinRdEdgeTypeSelect w
  | .pinRdRisingEnable w => pinRdRisingEnable w
  | .pinRdFallingEnable w => pinRdFallingEnable w
  | .pinRdFilterEnable w => pinRdFilterEnable w
  | .pinRdCfg p lane w => pinRdCfg p lane w
  | .pinRdOut p w => pinRdOut p w
  | .pinRdIn p w => pinRdIn p w
  | .pinRdInvalid off w => pinRdInvalid off w
  | .pinWrId0 w data => pinWrId0 w data
  | .pinWrId1 w data => pinWrId1 w data
  | .pinWrEdgeStatus w data => pinWrEdgeStatus w data
  | .pinWrIrqEnable w data => pinWrIrqEnable w data
  | .pinWrEdgeTypeSelect w data => pinWrEdgeTypeSelect w data
  | .pinWrRisingEnable w data => pinWrRisingEnable w data
  | .pinWrFallingEnable w data => pinWrFallingEnable w data
  | .pinWrFilterEnable w data => pinWrFilterEnable w data
  | .pinWrCfg p lane w data => pinWrCfg p lane w data
  | .pinWrOut p w data => pinWrOut p w data
  | .pinWrIn p w data => pinWrIn p w data
  | .pinWrInvalid off w data => pinWrInvalid off w data
  | .pinEvSetInput p level => pinEvSetInput p level
  | .pinEvInvalidPin p level => pinEvInvalidPin p level
  | .pinReset => pinReset
  | .uartRdVerid => uartRdVerid
  | .uartRdParam => uartRdParam
  | .uartRdGlobal => uartRdGlobal
  | .uartRdPincfg => uartRdPincfg
  | .uartRdBaud => uartRdBaud
  | .uartRdStat => uartRdStat
  | .uartRdCtrl => uartRdCtrl
  | .uartRdData => uartRdData
  | .uartRdMatch => uartRdMatch
  | .uartRdModir => uartRdModir
  | .uartRdFifo => uartRdFifo
  | .uartRdWater => uartRdWater
  | .uartRdInvalid off => uartRdInvalid off
  | .uartWrVerid v => uartWrVerid v
  | .uartWrParam v => uartWrParam v
  | .uartWrGlobal v => uartWrGlobal v
  | .uartWrPincfg v => uartWrPincfg v
  | .uartWrBaud v => uartWrBaud v
  | .uartWrStat v => uartWrStat v
  | .uartWrCtrl v => uartWrCtrl v
  | .uartWrData v => uartWrData v
  | .uartWrMatch v => uartWrMatch v
  | .uartWrModir v => uartWrModir v
  | .uartWrFifo v => uartWrFifo v
  | .uartWrWater v => uartWrWater v
  | .uartWrInvalid off v => uartWrInvalid off v
  | .uartEvReceive bytes => uartEvReceive bytes
  | .uartEvCanReceive => uartEvCanReceive
  | .uartReset => uartReset

end Sys2Proof.Laws.RoundTrip

namespace Sys2Proof.Machine

/-- Settles O32: the round trip of every operation. -/
theorem decodeOfEncodeIsTheOperation : Obligations.DecodeOfEncodeIsTheOperation :=
  fun P i hP hi => Laws.RoundTrip.statement_of_instr i P hP hi

/-! ### From a decoded request back to its operation -/

/-- The operation is well formed and `r` is its request. -/
def EncodesTo (P : Params) (i : Instr) (r : Request) : Prop := i.wf P = true ∧ encode P i = r

/-- A pin read that decodes is the request of its operation (rules R83, R86). -/
theorem encodesTo_of_pinRead {P : Params} {off : Word} {wd : Width} (ha : aligned off.toNat wd = true) :
    EncodesTo P (pinReadInstr off wd (decodePin P off.toNat)) (.mmioR .pin off wd.bytes) := by
  cases hd : decodePin P off.toNat with
  | none => exact ⟨by simp [pinReadInstr, Instr.wf, wfPinInvalid, hd, ha], rfl⟩
  | some t =>
    have hoff : t.off P = off.toNat := decodePin_some hd
    have hwf : t.wf P wd = true := by rw [PinTarget.wf, hoff, ha]
    have hreq : pinReadReq P t wd = .mmioR .pin off wd.bytes := by simp [pinReadReq, hoff]
    cases t <;> exact ⟨hwf, hreq⟩

/-- A pin write that decodes is the request of its operation (rules R83, R86). -/
theorem encodesTo_of_pinWrite {P : Params} {off v : Word} {wd : Width} (ha : aligned off.toNat wd = true) :
    EncodesTo P (pinWriteInstr off v wd (decodePin P off.toNat)) (.mmioW .pin off wd.bytes v) := by
  cases hd : decodePin P off.toNat with
  | none => exact ⟨by simp [pinWriteInstr, Instr.wf, wfPinInvalid, hd, ha], rfl⟩
  | some t =>
    have hoff : t.off P = off.toNat := decodePin_some hd
    have hwf : t.wf P wd = true := by rw [PinTarget.wf, hoff, ha]
    have hreq : pinWriteReq P t wd v = .mmioW .pin off wd.bytes v := by simp [pinWriteReq, hoff]
    cases t <;> exact ⟨hwf, hreq⟩

/-- Past the register file an aligned serial offset is an invalid one (rule R86). -/
theorem wfUartInvalid_of_decodeUart_none {off : Word} (hd : decodeUart off.toNat = none) (ha : off.toNat % 4 = 0) :
    wfUartInvalid off = true := by
  simpa [wfUartInvalid, ha, uartNSlots] using decodeUart_none hd

/-- A serial read that decodes is the request of its operation (rules R84, R86). -/
theorem encodesTo_of_uartRead {P : Params} {off : Word} (ha : off.toNat % 4 = 0) :
    EncodesTo P (uartReadInstr off (decodeUart off.toNat)) (.mmioR .uart off 4) := by
  cases hd : decodeUart off.toNat with
  | none => exact ⟨wfUartInvalid_of_decodeUart_none hd ha, rfl⟩
  | some slot =>
    have hreq : uartReadReq slot = .mmioR .uart off 4 := by simp [uartReadReq, decodeUart_some hd ha]
    cases slot <;> exact ⟨rfl, hreq⟩

/-- A serial write that decodes is the request of its operation (rules R84, R86). -/
theorem encodesTo_of_uartWrite {P : Params} {off v : Word} (ha : off.toNat % 4 = 0) :
    EncodesTo P (uartWriteInstr off v (decodeUart off.toNat)) (.mmioW .uart off 4 v) := by
  cases hd : decodeUart off.toNat with
  | none => exact ⟨wfUartInvalid_of_decodeUart_none hd ha, rfl⟩
  | some slot =>
    have hreq : uartWriteReq slot v = .mmioW .uart off 4 v := by simp [uartWriteReq, decodeUart_some hd ha]
    cases slot <;> exact ⟨rfl, hreq⟩

/-- A level of 0 or 1 is the number of its bit (rule R147). -/
theorem ite_beq_one_of_le {level : Nat} (h : level ≤ 1) : (if (level == 1) = true then 1 else 0) = level := by
  interval_cases level <;> rfl

/-- A pin event that decodes is the request of its operation (rules R140, R145). -/
theorem encodesTo_of_pinEvent {P : Params} {p level : Nat} {i : Instr} (h : decodePinEvent p level = .instr i) :
    EncodesTo P i (.pinEv p level) := by
  unfold decodePinEvent at h
  split at h
  · cases h
  next hl =>
    have hreq : pinEventReq p (level == 1) = .pinEv p level :=
      congrArg (Request.pinEv p) (ite_beq_one_of_le (Nat.not_lt.mp hl))
    split at h <;> cases h
    · exact ⟨rfl, hreq⟩
    next hp => exact ⟨decide_eq_true (Nat.not_lt.mp hp), hreq⟩

/-- Settles O33: the request is one of the six forms, and each gives its fields back. -/
theorem encodeOfDecodeIsTheRequest : Obligations.EncodeOfDecodeIsTheRequest := by
  intro P r i _ h
  cases r with
  | mmioR dev off w =>
    cases dev with
    | pin =>
      obtain ⟨wd, rfl, ha, rfl⟩ := decodePinAccess_instr h
      exact encodesTo_of_pinRead ha
    | uart =>
      obtain ⟨ha, rfl, rfl⟩ := decodeUartAccess_instr h
      exact encodesTo_of_uartRead ha
  | mmioW dev off w v =>
    cases dev with
    | pin =>
      obtain ⟨wd, rfl, ha, rfl⟩ := decodePinAccess_instr h
      exact encodesTo_of_pinWrite ha
    | uart =>
      obtain ⟨ha, rfl, rfl⟩ := decodeUartAccess_instr h
      exact encodesTo_of_uartWrite ha
  | reset dev => cases dev <;> cases h <;> exact ⟨rfl, rfl⟩
  | pinEv p level => exact encodesTo_of_pinEvent h
  | rxEv bytes | rxQ => cases h; exact ⟨rfl, rfl⟩

/-- Settles O34: the decoder computes each of them. -/
theorem sampleRequestsDecode : Obligations.SampleRequestsDecode := by
  unfold Obligations.SampleRequestsDecode
  decide

/-! ### The parameters (rule R7) -/

/-- The table gives each bit to at most one pin (rule R7). -/
theorem edgeBit_injective {P : Params} (h : P.wf = true) {p q : Fin nPins} {b : Nat} (hp : P.edgeBit p = some b)
    (hq : P.edgeBit q = some b) : p = q := by
  have hbits : P.edgeBits.Nodup := by
    simp only [Params.wf, Bool.and_eq_true, distinct_iff] at h
    tauto
  have hpairs := List.pairwise_iff_getElem.mp (List.pairwise_filterMap.mp hbits)
  have hentry {r : Fin nPins} (hr : P.edgeBit r = some b) :
      ∃ hlt : r.val < (P.edgeBitTable.take nPins).length, (P.edgeBitTable.take nPins)[r.val] = some b := by
    simp only [Params.edgeBit, Option.join_eq_some_iff, List.getElem?_eq_some_iff] at hr
    obtain ⟨hlt, hval⟩ := hr
    exact ⟨by simp [r.isLt, hlt], by simpa using hval⟩
  obtain ⟨hpl, hpv⟩ := hentry hp
  obtain ⟨hql, hqv⟩ := hentry hq
  rcases Nat.lt_trichotomy p.val q.val with hlt | heq | hlt
  · exact absurd rfl (hpairs _ _ hpl hql hlt b hpv b hqv)
  · exact Fin.ext heq
  · exact absurd rfl (hpairs _ _ hql hpl hlt b hqv b hpv)

/-- Settles O31: the checks of a well-formed set one by one, and `perform` refuses another set. -/
theorem parametersAreCheckedByRule7 : Obligations.ParametersAreCheckedByRule7 := by
  refine ⟨by decide, fun P h => ?_, fun r rest s hwf hp => ?_⟩
  · obtain ⟨hapart, hne, hobe, hibe⟩ : pairwiseApart P.pinRanges = true ∧ P.cfgObeBit ≠ P.cfgIbeBit ∧
        P.cfgObeBit < 32 ∧ P.cfgIbeBit < 32 := by
      simp only [Params.wf, Bool.and_eq_true, bne_iff_ne, decide_eq_true_eq] at h
      tauto
    refine ⟨PinTarget.off_lt h, ?_, hne, hobe, hibe, fun p q b => edgeBit_injective h, (Params.stat_bits h).1,
      (Params.ctrl_bits h).1⟩
    exact ((pairwiseApart_iff _).mp hapart).imp (by simp [apart])
  · simp [step, State.takeRequest, hp, perform, hwf]

/-! ### The step -/

/-- Settles O35: a step takes the oldest request and runs what it decodes to. -/
theorem stepRunsTheDecodedOperation : Obligations.StepRunsTheDecodedOperation :=
  ⟨fun _ _ _ _ hwf hp hd => step_of_decode_instr hp hwf hd, fun s hp => by simp [step, State.takeRequest, hp]⟩

/-- Settles O38: such an offset decodes to the invalid operation of its direction, a rejected access. -/
theorem offsetsThatSelectNothingAreInvalid : Obligations.OffsetsThatSelectNothingAreInvalid := by
  refine ⟨fun off v w rest s hwf => ⟨fun hnone ha => ?_, fun hpast ha => ?_⟩,
    fun P dev a off hP hb => Params.busOffset_some hP hb⟩
  · have hdecode : decodePin s.params off.toNat = none := hnone.elim id (decodePin_past_window hwf)
    have hinvalid : wfPinInvalid s.params off w = true := by simp [wfPinInvalid, hdecode, aligned, ha]
    exact ⟨fun hp => step_of_decode_instr hp hwf (decodePinAccess_invalid off w hinvalid .read _),
      fun hp => step_of_decode_instr hp hwf (decodePinAccess_invalid off w hinvalid .write _)⟩
  · have hinvalid : wfUartInvalid off = true := by simpa [wfUartInvalid, ha] using hpast
    exact ⟨fun hp => step_of_decode_instr hp hwf (decodeUartAccess_invalid off hinvalid .read _),
      fun hp => step_of_decode_instr hp hwf (decodeUartAccess_invalid off hinvalid .write _)⟩

/-! ### Requests that complete (rules R88, R224) -/

/-- The request decodes to an operation or to a wrong width: it is not rejected by name. -/
def Accepted (d : Decoded) : Prop := ∀ why, d ≠ .reject why

/-- A request that is not rejected is performed and answered. -/
theorem step_completes_of_accepted {s : State} {r : Request} {rest : List Request} (hp : s.pending = r :: rest)
    (hwf : s.params.wf = true) (hd : Accepted (decode s.params r)) : ∃ t, step s = .next t ∧ t.pending = rest := by
  rw [step_eq hp hwf]
  cases h : decode s.params r with
  | instr i =>
    obtain ⟨t, ht⟩ := exec_completes i { s with pending := rest }
    exact ⟨t, ht, exec_pending ht⟩
  | invalidWidth dev dir off w => exact ⟨_, rfl, rfl⟩
  | reject why => exact absurd h (hd why)

/-- A pin access that is aligned, if its width is one the controller takes, is accepted. -/
theorem decodePinAccess_accepted {P : Params} {dir : Dir} {off : Word} {w : Nat}
    {mk : Width → Option PinTarget → Instr} (ha : w ∈ [1, 2, 4] → off.toNat % w = 0) :
    Accepted (decodePinAccess P dir off w mk) := by
  intro why
  by_cases hw : w ∈ [1, 2, 4]
  · obtain ⟨wd, rfl⟩ := Width.exists_bytes_eq_iff.mpr hw
    simp [decodePinAccess, aligned, ha hw]
  · simp [decodePinAccess_wrong_width hw]

/-- An aligned serial access is accepted. -/
theorem decodeUartAccess_accepted {dir : Dir} {off : Word} {w : Nat} {mk : Option Slot → Instr}
    (ha : off.toNat % 4 = 0) : Accepted (decodeUartAccess dir off w mk) := by
  intro why
  by_cases hw : w = 4 <;> simp [decodeUartAccess, ha, hw]

/-- A pin event with a level of 0 or 1 is accepted. -/
theorem decodePinEvent_accepted {p level : Nat} (hl : level ≤ 1) : Accepted (decodePinEvent p level) := by
  intro why
  rw [decodePinEvent, if_neg (Nat.not_lt.mpr hl)]
  split <;> simp

/-- Settles O39: no request that keeps the duties is rejected by name. -/
theorem everyDutifulRequestCompletes : Obligations.EveryDutifulRequestCompletes := by
  intro r rest s hwf hp hduty
  refine step_completes_of_accepted hp hwf ?_
  cases r with
  | mmioR dev off w =>
    cases dev with
    | pin => exact decodePinAccess_accepted hduty
    | uart => exact decodeUartAccess_accepted hduty
  | mmioW dev off w v =>
    cases dev with
    | pin => exact decodePinAccess_accepted hduty
    | uart => exact decodeUartAccess_accepted hduty
  | pinEv p level => exact decodePinEvent_accepted hduty
  | reset dev => cases dev <;> exact fun why => nofun
  | rxEv bytes | rxQ => exact fun why => nofun

end Sys2Proof.Machine
end

section
/-! Proofs for single operations: narrow values (rule R65), the two write-1-to-clear registers (rules R70, R113, R180), the
STAT read (rule R167), FILTER_ENABLE (rule R118), the invalid pin event (rule R145) and the reset values (rules R204, R251,
R252). -/

namespace Sys2Proof.Machine

/-- Settles O4: the value modulo the width. -/
theorem narrowAccessCarriesTheLowBits : Obligations.NarrowAccessCarriesTheLowBits := lowBytes_toNat

/-- Settles O10: the two branches of the write. -/
theorem filterEnableWriteFollowsTheParameter : Obligations.FilterEnableWriteFollowsTheParameter := fun _ _ _ =>
  ⟨fun hw => if_pos hw, fun hw => if_neg (Bool.eq_false_iff.mp hw)⟩

/-- Settles O16: the meaning is the record and the reply. -/
theorem invalidPinEventOnlyLogs : Obligations.InvalidPinEventOnlyLogs := fun _ _ _ => rfl

/-! ### Write-1-to-clear -/

/-- Bits cleared twice are cleared once. -/
theorem and_not_and_not_self (a b : Word) : a &&& ~~~b &&& ~~~b = a &&& ~~~b := by
  rw [BitVec.and_assoc, BitVec.and_self]

/-- After a write-1-to-clear the line is not still to be lowered. -/
theorem exec_pinWrEdgeStatus_again {w : Width} {data : Word} {s t : State}
    (h : exec (.pinWrEdgeStatus w data) s = .next t) : exec (.pinWrEdgeStatus w data) t = .next t := by
  rw [exec_pinWrEdgeStatus_eq] at h
  split at h <;> cases h <;> rw [exec_pinWrEdgeStatus_eq]
  · simp [and_not_and_not_self]
  next hc => simpa [and_not_and_not_self] using hc

/-- Settles O8: what the second write would clear is clear. -/
theorem writeOneToClearIsIdempotent : Obligations.WriteOneToClearIsIdempotent := by
  refine fun w v s t => ⟨exec_pinWrEdgeStatus_again, fun h => ?_⟩
  cases h
  simp [exec, execUartWrStat, State.mapUart, State.answer, and_not_and_not_self]

/-- The mask of the five clearable flags (rule R180). -/
theorem bit_statW1cMask (P : Params) (i : Nat) :
    bit (statW1cMask P) i = decide (i ∈ [P.statIdle, P.statOr, P.statNf, P.statFe, P.statPf] ∧ i < 32) := by
  rw [Bool.eq_iff_iff]
  simp only [statW1cMask, bit_or, bit_mask, Bool.or_eq_true, decide_eq_true_eq, List.mem_cons, List.not_mem_nil, or_false]
  grind

/-- Settles O23: the write clears the bits that are set in the value and in the mask. -/
theorem statWriteClearsOnlyTheFiveFlags : Obligations.StatWriteClearsOnlyTheFiveFlags := by
  refine fun v s => ⟨s.uart.stat &&& ~~~(v &&& statW1cMask s.params), rfl, fun i => ?_⟩
  have hlt : bit s.uart.stat i = true → i < 32 := bit_lt
  rw [bit_and, bit_not, bit_and, bit_statW1cMask]
  grind

/-- Settles O19: what the read computes, bit by bit. -/
theorem statReadRecomputesItsFlags : Obligations.StatReadRecomputesItsFlags := by
  intro s hwf
  obtain ⟨-, htdre, htc, -, -, -⟩ := Params.stat_flags hwf
  refine ⟨statRead s.params s.uart, rfl, ?_, ?_, ?_, fun i h1 h2 h3 => ?_⟩
  · simp [bit_statRead hwf, htdre]
  · simp [bit_statRead hwf, htc]
  · simp [bit_statRead hwf]
  · simp [bit_statRead hwf, h1, h2, h3]

/-! ### Reset values -/

/-- Settles O28: the equation of the reset. -/
theorem uartResetRestoresEveryField : Obligations.UartResetRestoresEveryField := exec_uartReset_eq

/-- Settles O41: each pin of the array is a reset pin, and the other values are the definition's. -/
theorem resetStateHasTheSpecsValues : Obligations.ResetStateHasTheSpecsValues :=
  ⟨rfl, rfl, rfl, rfl, rfl, rfl, rfl, rfl, reset_slot, by decide, rfl, rfl, rfl, rfl, rfl, rfl, rfl⟩

end Sys2Proof.Machine
end

section
/-! Proofs for the hazards software meets: edges seen while disabled (rule R260) and the line after the FIFO is drained
(rule R257). -/

namespace Sys2Proof.Machine

/-! ### Edges seen while disabled (rule R260) -/

/-- An event on a pin whose interrupt is disabled never interrupts. -/
theorem not_edgeInterrupts_of_disabled {s : State} {p : Fin nPins}
    (hdis : bitAt s.pin.irqEnable (s.params.edgeBit p) = false) (level : Bool) : ¬ edgeInterrupts s p level := by
  rintro ⟨b, hb, hen, -⟩
  simp [hb, bitAt, hen] at hdis

/-- A write of IRQ_ENABLE changes no pin, no status bit, no line and emits nothing (rule R114). -/
theorem exec_pinWrIrqEnable_keeps {w : Width} {v : Word} {s t : State}
    (h : exec (.pinWrIrqEnable w v) s = .next t) (p : Fin nPins) :
    t.pin.slot p = s.pin.slot p ∧ t.pin.edgeStatus = s.pin.edgeStatus ∧ t.pin.irq = s.pin.irq ∧ t.trace = s.trace := by
  cases h
  exact ⟨rfl, rfl, rfl, rfl⟩

/-- Settles O57: the first event does not interrupt, as the interrupt is disabled, and the second is a repeated level. -/
theorem edgesSeenWhileDisabledAreLost : Obligations.EdgesSeenWhileDisabledAreLost := by
  intro p level w v s t u r hdis hibe ht hu hr
  have hslot := slot_of_exec_pinEvSetInput hibe ht
  obtain ⟨hstatus, hirq, htrace⟩ := exec_pinEvSetInput_silent (not_edgeInterrupts_of_disabled hdis level) ht
  obtain ⟨hslotU, hstatusU, hirqU, htraceU⟩ := exec_pinWrIrqEnable_keeps hu p
  have hibeU : (u.pin.slot p).ibe = true := by rw [hslotU, hslot, ← hibe]
  have hprevU : (u.pin.slot p).prevInputLevel = level := by rw [hslotU, hslot]
  obtain ⟨hstatusR, hirqR, htraceR⟩ := exec_pinEvSetInput_silent (not_edgeInterrupts_of_prev_eq hprevU) hr
  exact ⟨(levels_of_exec_pinEvSetInput hibeU hr).1, hstatusR.trans (hstatusU.trans hstatus),
    hirqR.trans (hirqU.trans hirq), htraceR.trans (htraceU.trans htrace)⟩

/-! ### The line after the FIFO is drained (rule R257) -/

/-- With TIE and RDRF clear the line's condition does not hold (rule R200). -/
theorem uartIrqCondition_eq_false {P : Params} {u : UartState} (htie : bit u.ctrl P.ctrlTie = false)
    (hrdrf : bit u.stat P.statRdrf = false) : uartIrqCondition P u = false := by
  simp [uartIrqCondition, htie, hrdrf]

/-- With RIE set and a byte queued a state that meets the invariant has its line high. -/
theorem State.Inv.line_high_of_rie {s : State} (hs : s.Inv) (hlen : 0 < s.uart.rxLen)
    (hrie : bit s.uart.ctrl s.params.ctrlRie = true) : s.uart.irq = true := by
  obtain ⟨hrdrf, -, -, -⟩ := hs.statFlags
  obtain ⟨hline, -, -⟩ := hs.uartLine
  exact hline (by simp [uartIrqCondition, hrie, hrdrf, hlen])

/-- The pop that empties the FIFO leaves RDRF clear (rule R169). -/
theorem bit_rdrf_fifoDrain (P : Params) (u : UartState) : bit (fifoDrain P u).stat P.statRdrf = false := by
  rw [fifoDrain, bit_stat_drained]
  simp

/-- A recomputation whose condition fails lowers a line that was high, and tells it so. -/
theorem uartIrqRecompute_lowers {s : State} (hirq : s.uart.irq = true)
    (hcond : uartIrqCondition s.params s.uart = false) :
    (uartIrqRecompute s).uart.irq = false ∧ (uartIrqRecompute s).trace = s.trace ++ [.setIrq .uart false] := by
  simp [uartIrqRecompute_eq, hirq, hcond]

/-- Writing CTRL its own value recomputes the line under the registers as they are (rule R181). -/
theorem exec_uartWrCtrl_self_lowers {s : State} (hirq : s.uart.irq = true)
    (hcond : uartIrqCondition s.params s.uart = false) :
    ∃ u, exec (.uartWrCtrl s.uart.ctrl) s = .next u ∧ u.uart.irq = false ∧
      u.trace = s.trace ++ [.setIrq .uart false] :=
  ⟨_, rfl, uartIrqRecompute_lowers (s := s.mapUart fun u => { u with ctrl := s.uart.ctrl }) hirq hcond⟩

/-- Settles O59: the drain leaves the condition false; the line falls at the recomputation that comes next, in the read
itself or in the CTRL write. -/
theorem drainedFifoLeavesTheLineHigh : Obligations.DrainedFifoLeavesTheLineHigh := by
  intro s t hs hlen hrie htie h
  have hirq : s.uart.irq = true := hs.line_high_of_rie (by omega) hrie
  have hcond : uartIrqCondition s.params (fifoDrain s.params s.uart) = false :=
    uartIrqCondition_eq_false htie (bit_rdrf_fifoDrain ..)
  have hempty : (fifoDrain s.params s.uart).rxLen = 0 := by simp [fifoDrain, fifoDrop, hlen]
  have hrdrf : bit (fifoDrain s.params s.uart).stat s.params.statRdrf = false := bit_rdrf_fifoDrain ..
  rw [exec_uartRdData_of_one hlen] at h
  cases hupdate : s.params.uartIrqUpdateOnDrain
  · rw [hupdate, if_neg Bool.false_ne_true] at h
    cases h
    exact ⟨hirq, hempty, hrdrf, fun _ => ⟨hirq, rfl, exec_uartWrCtrl_self_lowers hirq hcond⟩, nofun⟩
  · rw [hupdate, if_pos rfl] at h
    cases h
    have hlowers := uartIrqRecompute_lowers (s := s.mapUart (fifoDrain s.params)) hirq hcond
    rw [uartReadReply_eq, uartIrqRecompute_params, uartIrqRecompute_uart]
    exact ⟨hirq, hempty, hrdrf, nofun, fun _ => ⟨hcond, hlowers.2⟩⟩

end Sys2Proof.Machine
end
